-- ==== Sys2Proof/Word.lean ====
section
/-! DEFINITION. The block's word types (spec 00_scope.md R7, R8): every value is unsigned; a byte has
8 bits, a register or bus word 32 (20_memory.md R71), a time quantity or counter 64 (R5, TIME_WIDTH). -/

namespace Sys2Proof

/-- A byte of INBUF, of the key, of a message or of a digest (R8). -/
abbrev Byte := BitVec 8

/-- A bus word, a register of the window, a command word or a SHA-1 word (R71, R100, R174). -/
abbrev Word := BitVec 32

/-- A 64-bit quantity: an EpochTime, a step size, a step counter (R5, R76). -/
abbrev DWord := BitVec 64

end Sys2Proof
end

