-- ==== Sys2Proof/Syntax.lean ====
section
/-! DEFINITION. The commands of the engine, one constructor per row of spec/opcode_table.json (30_encoding.md R103,
R105). A command word carries no operand (R102): only an illegal word carries its two fields, because ERR.OP
records its low bits (R105). -/

namespace Sys2Proof

/-- A command: what a word written to CMD stands for (30_encoding.md R103, R104). -/
inductive Instr where
  /-- CFG_COMMIT, word 1: validate the staged configuration and make it active (R122). -/
  | cfgCommit
  /-- CFG_DEFAULT, word 2: restore the default configuration in both copies (R123). -/
  | cfgDefault
  /-- KEY_B32, word 3: decode base32 text from INBUF and provision it as the key (R148). -/
  | keyB32
  /-- KEY_RAW, word 4: provision the first TEXT_LEN bytes of INBUF as the key (R149). -/
  | keyRaw
  /-- HOTP, word 5: the HOTP value of the key and COUNTER (R184). -/
  | hotp
  /-- TIME, word 6: sample the time, compute step and seconds remaining (R215). -/
  | time
  /-- TOTP, word 7: the time-based code of one time sample (R231). -/
  | totp
  /-- ILLEGAL: every other word, with its OP and RSVD fields (R105). -/
  | illegal (op : BitVec 4) (rsvd : BitVec 28)
  deriving DecidableEq, Repr

end Sys2Proof
end

