-- ==== Sys2Proof/WellFormed.lean ====
section
/-! DEFINITION. Which terms of `Instr` stand for a word: an illegal command has a reserved bit set, or an OP of 0 or
8..15 (30_encoding.md R104, R105); the other words are the seven commands'. -/

namespace Sys2Proof

/-- The fields of an illegal word are not those of a legal one (R104). -/
def Instr.wf : Instr → Bool
  | .cfgCommit => true
  | .cfgDefault => true
  | .keyB32 => true
  | .keyRaw => true
  | .hotp => true
  | .time => true
  | .totp => true
  | .illegal op rsvd => rsvd != 0#28 || op == 0#4 || decide (8 ≤ op.toNat)

end Sys2Proof
end

