-- ==== Sys2Proof/Decode.lean ====
section
/-! DEFINITION. Decoding a command word (30_encoding.md R100, R101, R103, R104) and encoding a command. Decoding of a
32-bit word is total: a word that is no command is an ILLEGAL command, which the engine accepts and completes with
an error (R105). Only bits that are no single 32-bit word are rejected, by name: the port moves one word, as a
value, with no byte order (20_memory.md R71, R75). -/

namespace Sys2Proof

/-- Field OP, bits [3:0] of a command word (R101). -/
def opField (w : Word) : BitVec 4 := w.extractLsb' 0 4

/-- Field RSVD, bits [31:4] of a command word (R101). -/
def rsvdField (w : Word) : BitVec 28 := w.extractLsb' 4 28

/-- The opcode map (R103): what OP stands for when RSVD is 0; OP 0 and 8..15 are illegal. -/
def opcodeMap (op : BitVec 4) : Option Instr :=
  match op.toNat with
  | 1 => some .cfgCommit
  | 2 => some .cfgDefault
  | 3 => some .keyB32
  | 4 => some .keyRaw
  | 5 => some .hotp
  | 6 => some .time
  | 7 => some .totp
  | _ => none

/-- Decoding of a command word (R104): reserved bits first, then OP. -/
def decode (w : Word) : Instr :=
  if rsvdField w = 0#28 then
    match opcodeMap (opField w) with
    | some i => i
    | none => .illegal (opField w) (rsvdField w)
  else .illegal (opField w) (rsvdField w)

/-- OP of a command: the number its word carries in [3:0] (R103), which ERR.OP records (60_exceptions.md R254). -/
def Instr.op : Instr → BitVec 4
  | .cfgCommit => 0x1#4
  | .cfgDefault => 0x2#4
  | .keyB32 => 0x3#4
  | .keyRaw => 0x4#4
  | .hotp => 0x5#4
  | .time => 0x6#4
  | .totp => 0x7#4
  | .illegal op _ => op

/-- RSVD of a command: 0 in every legal word (R101). -/
def Instr.rsvd : Instr → BitVec 28
  | .cfgCommit => 0#28
  | .cfgDefault => 0#28
  | .keyB32 => 0#28
  | .keyRaw => 0#28
  | .hotp => 0#28
  | .time => 0#28
  | .totp => 0#28
  | .illegal _ rsvd => rsvd

/-- The word of a command: RSVD in [31:4] above OP in [3:0] (R101, R103). -/
def encode (i : Instr) : Word := i.rsvd ++ i.op

/-- Why bits given to the decoder are no command word. -/
inductive DecodeReject where
  /-- More than 32 bits: no access wider than one word exists (20_memory.md R71, R100). -/
  | widerThanOneWord (nbits : Nat)
  deriving DecidableEq, Repr

/-- The decoder on `nbits` bits of value `w`: bits above `nbits` are 0; more than one word is rejected by name. -/
def decodeBits (nbits w : Nat) : Except DecodeReject Instr :=
  if nbits ≤ 32 then .ok (decode (BitVec.ofNat 32 (w % 2 ^ nbits)))
  else .error (.widerThanOneWord nbits)

/-- The command the decoder reads from bits numbered as spec/opcode_table.json numbers them. -/
def decodeTableWord (nbits w : Nat) : Option Instr := (decodeBits nbits w).toOption

end Sys2Proof
end

