-- ==== Sys2Proof/Config.lean ====
section
/-! DEFINITION. What one implementation fixes (00_scope.md R5): the parameters the spec calls fixed are numbers; the
ones it leaves open, and the values it calls unspecified, are constants WITHOUT a body, so that no proof sees a
value of them (93_implementation_defined.md U1, U2, U4). CMD_LATENCY (U3) is no constant: it is the place of the
completion event in the schedule (notes/assumptions/2.md). -/

namespace Sys2Proof.Config

/-- WINDOW: bytes of the register window (R5, R70). -/
def window : Nat := 0x200

/-- INBUF_CAP (R5, R23). -/
def inbufCap : Nat := 256

/-- KEY_CAP (R5, R23). -/
def keyCap : Nat := 160

/-- Offset of INBUF in the window (R46, R70). -/
def inbufBase : Nat := 0x100

/-- ID_VALUE, what the ID register reads (R5, R22). -/
def idValue : Word := 0x4F545031#32

/-- What PARAM reads: INBUF_CAP in [15:0] and KEY_CAP in [31:16] (R23). -/
def paramValue : Word := 0x00A00100#32

/-- Start time of the default configuration (R6). -/
def defaultStart : DWord := 0#64

/-- Step size of the default configuration, in seconds (R6). -/
def defaultStep : DWord := 30#64

/-- Code width of the default configuration, in digits (R6). -/
def defaultWidth : BitVec 4 := 6#4

/-- CODE_WIDTH_MAX (R5); CODE_WIDTH_MIN is 1, so only 0 lies below it. -/
def codeWidthMax : Nat := 9

/-- Which multiple of WINDOW the platform chose for OTP_BASE: OPEN (R5, U4; notes/assumptions/6.md). -/
opaque otpBaseIndex : Nat

/-- OTP_BASE, a multiple of 0x200 whatever the platform chose (R5, R70). -/
def otpBase : Nat := window * otpBaseIndex

/-- FREE VALUE: the `n`-th fresh 32-bit draw, for a result register read while BUSY (R297, U1;
notes/assumptions/4.md). -/
opaque freeWord : Nat → Word

/-- FREE VALUE: the byte INBUF holds at window offset `a` after the reset that made the draw `n` (R46, R51, U2;
notes/assumptions/3.md). -/
opaque inbufAtReset : Nat → Nat → Byte

end Sys2Proof.Config
end

