-- ==== Sys2Proof/Machine/State.lean ====
section
/-! DEFINITION. The state of the machine: everything spec/10_state.md gives the block (R20 to R54), its ports (R48 to
R50), and two fields of the model's own, the schedule `events` and the free-value counter `draws`
(notes/assumptions/1.md, 5.md). All plain data. -/

namespace Sys2Proof.Machine

/-- What stops the machine with a fault: NOTHING. The spec names no fault and no stuck state ("No behaviour is `fault`
or `stuck`", 93_implementation_defined.md section 1): a command error is a next state (60_exceptions.md R254) and a
misaligned access gets a bus error response (20_memory.md R72). -/
inductive Fault where
  deriving DecidableEq, Repr

/-- Why the model gives a step no meaning. -/
inductive Refusal where
  /-- Raised by an arm of `exec` whose instruction has no meaning yet; no arm is one. Safe. -/
  | notModelled (mnemonic : String)
  /-- Raised by the step on a `powerDown` event: what state survives clock gating or power-down is not specified
  (60_exceptions.md R269, U7 'refuse'; notes/assumptions/11.md). Safe: nothing can be proved across it. -/
  | powerCycle
  deriving DecidableEq, Repr

/-- The command errors, one per CODE.DETAIL pair of 60_exceptions.md R252. -/
inductive CmdError where
  /-- 1.1: a byte neither in the base32 alphabet nor `=` (R143). -/
  | invalidCharacter
  /-- 1.2: `=` before data, padding outside the last group, or an illegal count (R143). -/
  | invalidPadding
  /-- 1.3: TEXT_LEN above 256 or no multiple of 8 (R143). -/
  | malformedLength
  /-- 1.4: non-zero unused bits in the last group (R143). -/
  | unusedBits
  /-- 2.1: the time port says the time is not valid (R211). -/
  | timeUnavailable
  /-- 2.2: the sampled time is before ACT_START (R212). -/
  | timeBeforeStart
  /-- 3.1: staged step size 0 (R124). -/
  | stepZero
  /-- 3.2: staged code width 0 (R124). -/
  | widthZero
  /-- 3.3: staged code width 10..15 (R124). -/
  | widthTooLarge
  /-- 4.1: no key provisioned (R184, R231). -/
  | noKey
  /-- 4.2: raw key longer than KEY_CAP (R149). -/
  | keyTooLong
  /-- 5.1: OP is 0 or 8..15 (R105). -/
  | illegalOp
  /-- 5.2: command word bits [31:4] not zero (R105). -/
  | reservedBits
  deriving DecidableEq, Repr

/-- CTRL (R24). -/
structure Ctrl where
  /-- IE: `irq` follows STATUS.DONE. -/
  ie : Bool
  /-- TSRC: TIME and TOTP sample NOW (true) or the time port (false). -/
  tsrc : Bool
  deriving DecidableEq, Repr

/-- STATUS (R25): its six flags, all of the block's flags (R52). The unlisted bits read 0 and ignore writes, so nothing
else is held. -/
structure Status where
  busy : Bool
  done : Bool
  valid : Bool
  err : Bool
  ovr : Bool
  keyValid : Bool
  deriving DecidableEq, Repr

/-- ERR (R33): its three fields; the other bits read 0. -/
structure ErrReg where
  code : BitVec 4
  detail : BitVec 4
  op : BitVec 4
  deriving DecidableEq, Repr

/-- A configuration (40_configuration.md R120): start time, step size in seconds, code width in digits. -/
structure OtpConfig where
  start : DWord
  step : DWord
  width : BitVec 4
  deriving DecidableEq, Repr

/-- Five SHA-1 words: DIGEST0..DIGEST4 (R43), a hash value H0..H4 or the working words a..e (42_hotp_engine.md R173,
R176). -/
structure Digest where
  h0 : Word
  h1 : Word
  h2 : Word
  h3 : Word
  h4 : Word
  deriving DecidableEq, Repr

/-- A time sample `(valid, t)` (43_time_step.md R210). -/
structure Sample where
  valid : Bool
  time : DWord
  deriving DecidableEq, Repr

/-- PEND when a command is pending (R45): the accepted word and the time sample of its acceptance, if it takes one. -/
structure Pending where
  word : Word
  sample : Option Sample
  deriving DecidableEq, Repr

/-- What the host port answers to a transfer (20_memory.md R71, R72): read data and the bus error response. -/
structure Response where
  data : Word
  error : Bool
  deriving DecidableEq, Repr

/-- A host bus transfer of one 32-bit word (R71). -/
inductive Transfer where
  | read
  | write (data : Word)
  deriving DecidableEq, Repr

/-- What can happen in one step: the inputs from outside the block, and the engine's completion. -/
inductive Event where
  /-- A transfer at offset `off` of the window, on the host port (R70, R71). -/
  | port (off : BitVec 9) (x : Transfer)
  /-- A transfer at a byte address of the platform; it reaches the port if the address lies in the window (R70). -/
  | platform (addr : Nat) (x : Transfer)
  /-- The platform drives the time port to new levels, both at once (R48, 70_reset_and_hazards.md R303). -/
  | timePort (valid : Bool) (t : DWord)
  /-- The platform drives `rst` to a level: true asserts, false releases (R50, R290). -/
  | rst (level : Bool)
  /-- The engine completes the pending command (R45, R305). -/
  | complete
  /-- A clock cycle in which nothing arrives and nothing completes. -/
  | idle
  /-- The platform gates the clock or the power of the block (60_exceptions.md R269, U7). -/
  | powerDown
  deriving DecidableEq, Repr

/-- The block's one memory, INBUF (R46), as cells (window offset, byte). -/
abbrev Memory := List Host.Cell

/-- The window offsets of INBUF's 256 bytes, rising (R46, R70). -/
def inbufAddrs : List Nat := List.range' Config.inbufBase Config.inbufCap

/-- The canonical form of a memory: exactly INBUF's offsets, each once, rising. An offset outside has no byte, so equal
memories are equal lists (notes/assumptions/3.md). -/
def Memory.wf (m : Memory) : Bool := m.map Prod.fst == inbufAddrs

/-- The whole state of the block (R51), its ports, and the model's schedule and free-value counter. -/
structure State where
  /-- CTRL (R24). -/
  ctrl : Ctrl
  /-- STATUS (R25). -/
  status : Status
  /-- ERR (R33). -/
  err : ErrReg
  /-- The staged configuration CFG_START, CFG_STEP, CFG_WIDTH (R34 to R36). -/
  cfg : OtpConfig
  /-- The active configuration ACT_START, ACT_STEP, ACT_WIDTH (R37). -/
  act : OtpConfig
  /-- NOW (R38). -/
  now : DWord
  /-- COUNTER (R39). -/
  counter : DWord
  /-- TEXT_LEN (R40). -/
  textLen : BitVec 9
  /-- KEY_LEN (R41). -/
  keyLen : BitVec 8
  /-- KEY[0..160) (R47). -/
  key : List Byte
  /-- TSAMP (R42). -/
  tsamp : DWord
  /-- STEP (R42). -/
  stepReg : DWord
  /-- REMAIN (R42). -/
  remain : DWord
  /-- DIGEST0..DIGEST4 (R43). -/
  digest : Digest
  /-- OFFSET (R44). -/
  offset : BitVec 4
  /-- TRUNC (R44). -/
  trunc : BitVec 31
  /-- CODE (R44). -/
  code : Word
  /-- INBUF (R46). -/
  inbuf : Memory
  /-- PEND, the engine's hidden item (R45). -/
  pend : Option Pending
  /-- Level of the reset port: true while `rst` is asserted (R50, R290). -/
  rst : Bool
  /-- Level of `time_valid` (R48). -/
  timeValid : Bool
  /-- Level of `time_in` (R48). -/
  timeIn : DWord
  /-- The port's response to the transfer of the last step, if that step was one (R71, R72). -/
  resp : Option Response
  /-- The MODEL's own: what happens in the steps to come, in order (notes/assumptions/1.md). -/
  events : List Event
  /-- The MODEL's own: the next unused draw of the free values (notes/assumptions/5.md). -/
  draws : Nat
  deriving DecidableEq, Repr

/-- INBUF after the reset that takes draw `n`: unspecified bytes (R46, R51, U2). -/
def Memory.atReset (n : Nat) : Memory := inbufAddrs.map fun a => (a, Config.inbufAtReset n a)

/-- The default configuration `(0, 30, 6)` (R6, R120). -/
def OtpConfig.default : OtpConfig :=
  { start := Config.defaultStart, step := Config.defaultStep, width := Config.defaultWidth }

/-- The machine right after reset (R51, R291), with the ports at the levels of notes/assumptions/7.md. -/
def State.reset : State where
  ctrl := { ie := false, tsrc := false }
  status := { busy := false, done := false, valid := false, err := false, ovr := false, keyValid := false }
  err := { code := 0#4, detail := 0#4, op := 0#4 }
  cfg := OtpConfig.default
  act := OtpConfig.default
  now := 0#64
  counter := 0#64
  textLen := 0#9
  keyLen := 0#8
  key := List.replicate Config.keyCap 0#8
  tsamp := 0#64
  stepReg := 0#64
  remain := 0#64
  digest := { h0 := 0#32, h1 := 0#32, h2 := 0#32, h3 := 0#32, h4 := 0#32 }
  offset := 0#4
  trunc := 0#31
  code := 0#32
  inbuf := Memory.atReset 0
  pend := none
  rst := false
  timeValid := false
  timeIn := 0#64
  resp := none
  events := []
  draws := 1

end Sys2Proof.Machine
end

