-- ==== Sys2Proof/Machine/Operands.lean ====
section
/-! DEFINITION. Operand forms: byte order (00_scope.md R8, 20_memory.md R75 to R77), the two halves of a 64-bit register
(R76), reading INBUF and KEY, and the fixed operands of the commands (10_state.md R53). -/

namespace Sys2Proof.Machine

/-! ### Byte order -/

/-- `BE_n(x)`: the `n`-byte big-endian serialisation of `x` (R8, 41_secret_codec.md R143). -/
def beBytes (n x : Nat) : List Byte :=
  match n with
  | 0 => []
  | k + 1 => BitVec.ofNat 8 (x / 256 ^ k) :: beBytes k x

/-- `BE64(v)` (R8). -/
def be64 (v : DWord) : List Byte := beBytes 8 v.toNat

/-- `BE32(v)` (R8). -/
def be32 (v : Word) : List Byte := beBytes 4 v.toNat

/-- The big-endian value of a byte sequence. -/
def fromBE (bs : List Byte) : Nat := bs.foldl (fun acc b => acc * 256 + b.toNat) 0

/-- `fromBE32` of four bytes (R8). -/
def fromBE32 (bs : List Byte) : Word := BitVec.ofNat 32 (fromBE bs)

/-! ### Halves of a 64-bit register (R76) -/

/-- Bits [31:0], what the `_LO` register reads. -/
def loHalf (v : DWord) : Word := v.extractLsb' 0 32

/-- Bits [63:32], what the `_HI` register reads. -/
def hiHalf (v : DWord) : Word := v.extractLsb' 32 32

/-- `v` with its `_LO` register written. -/
def setLoHalf (v : DWord) (w : Word) : DWord := hiHalf v ++ w

/-- `v` with its `_HI` register written. -/
def setHiHalf (v : DWord) (w : Word) : DWord := w ++ loHalf v

/-! ### Memory -/

/-- The byte at offset `a`; none where the memory has no cell (outside INBUF). -/
def Memory.read? : Memory → Nat → Option Byte
  | [], _ => none
  | (k, b) :: m, a => if k = a then some b else Memory.read? m a

/-- The byte at an offset of INBUF. In a well-formed memory every offset of INBUF has a cell, so the other case is
not met (notes/assumptions/20.md). -/
def Memory.byte (m : Memory) (a : Nat) : Byte := (m.read? a).getD 0#8

/-- The memory with the byte at `a` replaced; a memory without that cell is unchanged. -/
def Memory.write : Memory → Nat → Byte → Memory
  | [], _, _ => []
  | (k, b) :: m, a, v => if k = a then (k, v) :: m else (k, b) :: Memory.write m a v

/-- Window offset of buffer byte `INBUF[i]` (R46, R70). -/
def inbufAddr (i : Nat) : Nat := Config.inbufBase + i

/-- `INBUF[i]` (R46). -/
def inbufByte (m : Memory) (i : Nat) : Byte := m.byte (inbufAddr i)

/-- The word INBUFj: `INBUF[4j+b]` in bits [8b+7:8b] (R46, R75). -/
def inbufWord (m : Memory) (j : Nat) : Word :=
  inbufByte m (4 * j + 3) ++ inbufByte m (4 * j + 2) ++ inbufByte m (4 * j + 1) ++ inbufByte m (4 * j)

/-- The memory after the word INBUFj is written (R46, R75). -/
def writeInbufWord (m : Memory) (j : Nat) (v : Word) : Memory :=
  (((m.write (inbufAddr (4 * j)) (v.extractLsb' 0 8)).write (inbufAddr (4 * j + 1)) (v.extractLsb' 8 8)).write
    (inbufAddr (4 * j + 2)) (v.extractLsb' 16 8)).write (inbufAddr (4 * j + 3)) (v.extractLsb' 24 8)

/-! ### Command operands (R53) -/

/-- `INBUF[0 .. n)` (R46). -/
def inbufBytes (m : Memory) (n : Nat) : List Byte := (List.range n).map (inbufByte m)

/-- The text or raw key the key commands read: `INBUF[0 .. TEXT_LEN)` (R40, R148, R149). -/
def State.text (s : State) : List Byte := inbufBytes s.inbuf s.textLen.toNat

/-- The provisioned key `KEY[0 .. KEY_LEN)` (R41, R47). -/
def State.keyBytes (s : State) : List Byte := s.key.take s.keyLen.toNat

/-- `Sample()`: NOW, always valid, if TSRC = 1; else the time port (43_time_step.md R210). -/
def State.takeSample (s : State) : Sample :=
  if s.ctrl.tsrc then { valid := true, time := s.now } else { valid := s.timeValid, time := s.timeIn }

/-- `tsample`: the sample PEND holds (R45, R215). A state whose PEND holds none is not met when TIME or TOTP completes;
there the sample is taken at completion (notes/assumptions/8.md). -/
def State.commandSample (s : State) : Sample :=
  match s.pend with
  | some { word := _, sample := some x } => x
  | some { word := _, sample := none } => s.takeSample
  | none => s.takeSample

end Sys2Proof.Machine
end

