-- ==== Sys2Proof/Machine/Flags.lean ====
section
/-! DEFINITION. The flags of the block (10_state.md R52): the words of CTRL, STATUS and ERR, the write to STATUS, the
interrupt output, and the codes of the command errors. -/

namespace Sys2Proof.Machine

/-- What CTRL reads (R24). -/
def Ctrl.word (c : Ctrl) : Word := 0#30 ++ BitVec.ofBool c.tsrc ++ BitVec.ofBool c.ie

/-- CTRL after a write: bits [1:0] are kept (R24). -/
def Ctrl.ofWord (v : Word) : Ctrl := { ie := v.getLsbD 0, tsrc := v.getLsbD 1 }

/-- What STATUS reads (R25). -/
def Status.word (st : Status) : Word :=
  0#26 ++ BitVec.ofBool st.keyValid ++ BitVec.ofBool st.ovr ++ BitVec.ofBool st.err ++ BitVec.ofBool st.valid ++
    BitVec.ofBool st.done ++ BitVec.ofBool st.busy

/-- STATUS after a host write: data bit 1 clears DONE, data bit 4 clears OVR, nothing else changes (R25). -/
def Status.written (st : Status) (v : Word) : Status :=
  { st with done := st.done && !v.getLsbD 1, ovr := st.ovr && !v.getLsbD 4 }

/-- STATUS after acceptance of a command (R26 to R29, R45); OVR and KEY_VALID stay (R30, R31). -/
def Status.accepted (st : Status) : Status :=
  { st with busy := true, done := false, valid := false, err := false }

/-- STATUS after completion of a command (R26 to R29, R45, 60_exceptions.md R254): VALID if it raised no error, ERR if
it did. -/
def Status.completed (st : Status) (ok : Bool) : Status :=
  { st with busy := false, done := true, valid := ok, err := !ok }

/-- ERR with nothing reported: its value at reset, at acceptance and after a success (R33, R45). -/
def ErrReg.clear : ErrReg := { code := 0#4, detail := 0#4, op := 0#4 }

/-- What ERR reads (R33). -/
def ErrReg.word (e : ErrReg) : Word := 0#12 ++ e.op ++ 0#4 ++ e.detail ++ 0#4 ++ e.code

/-- ERR.CODE of an error (60_exceptions.md R251). -/
def CmdError.code : CmdError → BitVec 4
  | .invalidCharacter => 1#4
  | .invalidPadding => 1#4
  | .malformedLength => 1#4
  | .unusedBits => 1#4
  | .timeUnavailable => 2#4
  | .timeBeforeStart => 2#4
  | .stepZero => 3#4
  | .widthZero => 3#4
  | .widthTooLarge => 3#4
  | .noKey => 4#4
  | .keyTooLong => 4#4
  | .illegalOp => 5#4
  | .reservedBits => 5#4

/-- ERR.DETAIL of an error (60_exceptions.md R252). -/
def CmdError.detail : CmdError → BitVec 4
  | .invalidCharacter => 1#4
  | .invalidPadding => 2#4
  | .malformedLength => 3#4
  | .unusedBits => 4#4
  | .timeUnavailable => 1#4
  | .timeBeforeStart => 2#4
  | .stepZero => 1#4
  | .widthZero => 2#4
  | .widthTooLarge => 3#4
  | .noKey => 1#4
  | .keyTooLong => 2#4
  | .illegalOp => 1#4
  | .reservedBits => 2#4

/-- ERR after a command of opcode `op` raised `e` (60_exceptions.md R253, R254). -/
def ErrReg.report (op : BitVec 4) (e : CmdError) : ErrReg := { code := e.code, detail := e.detail, op := op }

/-- The interrupt output, a level: `irq = CTRL.IE & STATUS.DONE` (R49, 60_exceptions.md R260). -/
def State.irq (s : State) : Bool := s.ctrl.ie && s.status.done

end Sys2Proof.Machine
end

