-- ==== Sys2Proof/Machine/Ops.lean ====
section
/-! DEFINITION. The operations the commands and the step share: acceptance and completion of a command (10_state.md
R45), entering an error (60_exceptions.md R254), the result writes of the commands (R54) and the reset step
(70_reset_and_hazards.md R290). There is no return from an error (60_exceptions.md R257): its report is cleared by the
next acceptance, which is `State.accept`. -/

namespace Sys2Proof.Machine

/-- Whether a command takes a time sample at acceptance (R45, R210). -/
def takesSample : Instr → Bool
  | .cfgCommit => false
  | .cfgDefault => false
  | .keyB32 => false
  | .keyRaw => false
  | .hotp => false
  | .time => true
  | .totp => true
  | .illegal _ _ => false

/-- The sample of an acceptance of word `w` (R45; notes/assumptions/15.md for illegal words). -/
def State.acceptSample (s : State) (w : Word) : Option Sample :=
  if takesSample (decode w) then some s.takeSample else none

/-- Acceptance of the command word `w` (R45). -/
def State.accept (s : State) (w : Word) : State :=
  { s with
    status := s.status.accepted
    err := ErrReg.clear
    pend := some { word := w, sample := s.acceptSample w } }

/-- Completion of a command that raised no error, all its result writes done (R45). -/
def State.succeed (s : State) : State :=
  { s with status := s.status.completed true, err := ErrReg.clear, pend := none }

/-- ERROR ENTRY: completion of a command of opcode `op` that raised `e` in state `s`; none of its writes is applied
(60_exceptions.md R254, R256). This is what the block has for taking an exception (R250). -/
def State.raise (s : State) (op : BitVec 4) (e : CmdError) : State :=
  { s with status := s.status.completed false, err := ErrReg.report op e, pend := none }

/-- Completion of a command of opcode `op`: `r` holds its writes applied to `s`, or the first error it raised (R45). -/
def State.completeWith (s : State) (op : BitVec 4) (r : Except CmdError State) : State :=
  match r with
  | .ok t => t.succeed
  | .error e => s.raise op e

/-- `StoreKey(K)` (41_secret_codec.md R146). -/
def State.storeKey (s : State) (k : List Byte) : State :=
  { s with
    key := k ++ List.replicate (Config.keyCap - k.length) 0#8
    keyLen := BitVec.ofNat 8 k.length
    status := { s.status with keyValid := true } }

/-- What a host write to a frozen register does while BUSY (70_reset_and_hazards.md R296, 10_state.md R30): it is
dropped and sets OVR. -/
def State.dropWrite (s : State) : State := { s with status := { s.status with ovr := true } }

/-- The reset step while `rst` is asserted: the whole state is replaced by R51's values, INBUF by a fresh draw (R290,
R291, U2). Only the platform's port levels and the model's own fields go on. -/
def State.assertReset (s : State) : State :=
  { State.reset with
    inbuf := Memory.atReset s.draws
    rst := true
    timeValid := s.timeValid
    timeIn := s.timeIn
    resp := s.resp
    events := s.events
    draws := s.draws + 1 }

/-- `rst` is released: the block is idle in the reset state and accepts accesses (R290). -/
def State.releaseReset (s : State) : State := { s with rst := false }

/-- The platform drives the time port (R48). -/
def State.driveTime (s : State) (valid : Bool) (t : DWord) : State := { s with timeValid := valid, timeIn := t }

/-- The port answers a transfer (20_memory.md R71, R72). -/
def State.respond (s : State) (data : Word) (error : Bool) : State :=
  { s with resp := some { data := data, error := error } }

end Sys2Proof.Machine
end

