-- ==== Sys2Proof/Machine/Configuration.lean ====
section
/-! DEFINITION. The configuration commands (40_configuration.md). -/

namespace Sys2Proof.Machine

/-- `ValidCfg(start, step, width)`: the first failing check, if any (R124). -/
def OtpConfig.firstError (c : OtpConfig) : Option CmdError :=
  if c.step = 0#64 then some .stepZero
  else if c.width = 0#4 then some .widthZero
  else if c.width.toNat > Config.codeWidthMax then some .widthTooLarge
  else none

/-- The writes of CFG_COMMIT, or its error (R122). -/
def commitConfig (s : State) : Except CmdError State :=
  match s.cfg.firstError with
  | some e => .error e
  | none => .ok { s with act := s.cfg }

/-- CFG_COMMIT (R122). -/
def execCfgCommit (s : State) : Host.Outcome State Fault Refusal :=
  .next (s.completeWith 0x1#4 (commitConfig s))

/-- The writes of CFG_DEFAULT, which raises nothing (R123). -/
def defaultConfig (s : State) : Except CmdError State :=
  .ok { s with cfg := OtpConfig.default, act := OtpConfig.default }

/-- CFG_DEFAULT (R123). -/
def execCfgDefault (s : State) : Host.Outcome State Fault Refusal :=
  .next (s.completeWith 0x2#4 (defaultConfig s))

end Sys2Proof.Machine
end

