-- ==== Sys2Proof/Machine/Illegal.lean ====
section
/-! DEFINITION. The ILLEGAL command (30_encoding.md R105): it reads nothing, writes no result and completes with
IllegalCommand. -/

namespace Sys2Proof.Machine

/-- The detail of an illegal word: reserved bits first (R104, R105). -/
def illegalError (rsvd : BitVec 28) : CmdError := if rsvd = 0#28 then .illegalOp else .reservedBits

/-- ILLEGAL: completes with IllegalCommand, ERR.OP the word's OP (R105). -/
def execIllegal (op : BitVec 4) (rsvd : BitVec 28) (s : State) : Host.Outcome State Fault Refusal :=
  .next (s.completeWith op (.error (illegalError rsvd)))

end Sys2Proof.Machine
end

