-- ==== Sys2Proof/Machine/Base32.lean ====
section
/-! DEFINITION. The base32 decoder of 41_secret_codec.md R140 to R144 (alphabet and padding: notes/assumptions/17.md). -/

namespace Sys2Proof.Machine

/-- `Val(c)` of the 32-symbol alphabet; none for padding and every other byte (R141). -/
def symbolValue (c : Byte) : Option Nat :=
  if 0x41 ≤ c.toNat ∧ c.toNat ≤ 0x5A then some (c.toNat - 0x41)
  else if 0x32 ≤ c.toNat ∧ c.toNat ≤ 0x37 then some (c.toNat - 0x32 + 26)
  else none

/-- The padding byte `=` (R141). -/
def padByte : Byte := 0x3D#8

/-- A byte that is neither in the alphabet nor padding (R141, R143). -/
def invalidSymbol (c : Byte) : Bool := c != padByte && (symbolValue c).isNone

/-- The count of padding bytes at the end of a group (R143). -/
def trailingPads (g : List Byte) : Nat := (g.reverse.takeWhile (· == padByte)).length

/-- The value of data symbols, the first in the most significant bits (R143). -/
def symbolsValue (cs : List Byte) : Nat := cs.foldl (fun acc c => acc * 32 + (symbolValue c).getD 0) 0

/-- The padding counts a last group may have (R142). -/
def legalPads (p : Nat) : Bool := p == 0 || p == 1 || p == 3 || p == 4 || p == 6

/-- One group of 8 symbols, `last` if it ends the text, with the checks in R143's order. -/
def decodeGroup (last : Bool) (g : List Byte) : Except CmdError (List Byte) :=
  let p := trailingPads g
  let d := 8 - p
  let nb := 5 * d / 8
  let lo := 5 * d - 8 * nb
  let v := symbolsValue (g.take d)
  if (g.take d).any (· == padByte) then .error .invalidPadding
  else if p > 0 ∧ ¬ last then .error .invalidPadding
  else if ¬ legalPads p then .error .invalidPadding
  else if v % 2 ^ lo ≠ 0 then .error .unusedBits
  else .ok (beBytes nb (v / 2 ^ lo))

/-- The groups of a text, left to right; the first error decides (R143). -/
def decodeGroups : Nat → List Byte → Except CmdError (List Byte)
  | 0, _ => .ok []
  | n + 1, t =>
    match decodeGroup (n == 0) (t.take 8) with
    | .error e => .error e
    | .ok bytes =>
      match decodeGroups n (t.drop 8) with
      | .error e => .error e
      | .ok rest => .ok (bytes ++ rest)

/-- `Base32Decode(T)`, with the order of its checks (R143). -/
def base32Decode (t : List Byte) : Except CmdError (List Byte) :=
  if t.length > Config.inbufCap then .error .malformedLength
  else if t.length % 8 ≠ 0 then .error .malformedLength
  else if t.any invalidSymbol then .error .invalidCharacter
  else decodeGroups (t.length / 8) t

end Sys2Proof.Machine
end

