-- ==== Sys2Proof/Machine/Secret.lean ====
section
/-! DEFINITION. The key commands (41_secret_codec.md R146 to R149). -/

namespace Sys2Proof.Machine

/-- The writes of KEY_B32, or its error (R148). -/
def keyFromBase32 (s : State) : Except CmdError State :=
  match base32Decode s.text with
  | .error e => .error e
  | .ok k => .ok (s.storeKey k)

/-- KEY_B32 (R148). -/
def execKeyB32 (s : State) : Host.Outcome State Fault Refusal :=
  .next (s.completeWith 0x3#4 (keyFromBase32 s))

/-- The writes of KEY_RAW, or its error (R149). -/
def keyFromRaw (s : State) : Except CmdError State :=
  if s.textLen.toNat > Config.keyCap then .error .keyTooLong
  else .ok (s.storeKey s.text)

/-- KEY_RAW (R149). -/
def execKeyRaw (s : State) : Host.Outcome State Fault Refusal :=
  .next (s.completeWith 0x4#4 (keyFromRaw s))

end Sys2Proof.Machine
end

