-- ==== Sys2Proof/Machine/Hash.lean ====
section
/-! DEFINITION. SHA-1 and HMAC-SHA1 as 42_hotp_engine.md R172 to R179 give them (notes/assumptions/17.md). -/

namespace Sys2Proof.Machine

/-! ### SHA-1 -/

/-- The number of zero bytes SHA-1 padding puts after 0x80: the least `k` with `(L + 1 + k) mod 64 = 56` (R172). -/
def padZeros (len : Nat) : Nat := (119 - len % 64) % 64

/-- `Pad(X)` (R172). -/
def sha1Pad (x : List Byte) : List Byte :=
  x ++ 0x80#8 :: (List.replicate (padZeros x.length) 0#8 ++ beBytes 8 (8 * x.length))

/-- The initial hash value (R173). -/
def sha1Init : Digest where
  h0 := 0x67452301#32
  h1 := 0xEFCDAB89#32
  h2 := 0x98BADCFE#32
  h3 := 0x10325476#32
  h4 := 0xC3D2E1F0#32

/-- `f_t(b, c, d)` (R174). -/
def sha1F (t : Nat) (b c d : Word) : Word :=
  if t < 20 then (b &&& c) ||| (~~~b &&& d)
  else if t < 40 then b ^^^ c ^^^ d
  else if t < 60 then (b &&& c) ||| (b &&& d) ||| (c &&& d)
  else b ^^^ c ^^^ d

/-- `K_t` (R174). -/
def sha1K (t : Nat) : Word :=
  if t < 20 then 0x5A827999#32
  else if t < 40 then 0x6ED9EBA1#32
  else if t < 60 then 0x8F1BBCDC#32
  else 0xCA62C1D6#32

/-- `W[0..16)` of a block: its big-endian words (R175). -/
def blockWords : Nat → List Byte → List Word
  | 0, _ => []
  | n + 1, y => fromBE32 (y.take 4) :: blockWords n (y.drop 4)

/-- The next word of the schedule from the words so far, newest first (R175). -/
def nextWord (prev : List Word) : Word :=
  (prev.getD 2 0#32 ^^^ prev.getD 7 0#32 ^^^ prev.getD 13 0#32 ^^^ prev.getD 15 0#32).rotateLeft 1

/-- `n` more words of the schedule, newest first. -/
def extendSchedule : Nat → List Word → List Word
  | 0, prev => prev
  | n + 1, prev => extendSchedule n (nextWord prev :: prev)

/-- The message schedule `W[0..80)` of a 64-byte block (R175). -/
def schedule (y : List Byte) : List Word := (extendSchedule 64 (blockWords 16 y).reverse).reverse

/-- One round on the working words `(a, b, c, d, e)` (R176). -/
def sha1Round (t : Nat) (w : Word) (x : Digest) : Digest where
  h0 := x.h0.rotateLeft 5 + sha1F t x.h1 x.h2 x.h3 + x.h4 + sha1K t + w
  h1 := x.h0
  h2 := x.h1.rotateLeft 30
  h3 := x.h2
  h4 := x.h3

/-- The rounds from `t` on, one per schedule word (R176). -/
def sha1Rounds : Nat → List Word → Digest → Digest
  | _, [], x => x
  | t, w :: ws, x => sha1Rounds (t + 1) ws (sha1Round t w x)

/-- Wordwise addition modulo 2^32 of two hash values (R176). -/
def Digest.add (x y : Digest) : Digest where
  h0 := x.h0 + y.h0
  h1 := x.h1 + y.h1
  h2 := x.h2 + y.h2
  h3 := x.h3 + y.h3
  h4 := x.h4 + y.h4

/-- `Compress(H, Y)` (R176). -/
def compress (h : Digest) (y : List Byte) : Digest := h.add (sha1Rounds 0 (schedule y) h)

/-- Compression of `n` 64-byte blocks in order (R177). -/
def compressBlocks : Nat → List Byte → Digest → Digest
  | 0, _, h => h
  | n + 1, p, h => compressBlocks n (p.drop 64) (compress h (p.take 64))

/-- The hash value `H0..H4` of a byte sequence (R177). -/
def sha1Words (x : List Byte) : Digest := compressBlocks ((sha1Pad x).length / 64) (sha1Pad x) sha1Init

/-- The 20 bytes `BE32(H0) || ... || BE32(H4)` (R177). -/
def Digest.bytes (d : Digest) : List Byte := be32 d.h0 ++ be32 d.h1 ++ be32 d.h2 ++ be32 d.h3 ++ be32 d.h4

/-- `DIGESTk = fromBE32(D[4k .. 4k+4))` of 20 digest bytes (10_state.md R43, R180). -/
def Digest.ofBytes (bs : List Byte) : Digest where
  h0 := fromBE32 (bs.take 4)
  h1 := fromBE32 ((bs.drop 4).take 4)
  h2 := fromBE32 ((bs.drop 8).take 4)
  h3 := fromBE32 ((bs.drop 12).take 4)
  h4 := fromBE32 ((bs.drop 16).take 4)

/-- `SHA1(X)` (R177). -/
def sha1 (x : List Byte) : List Byte := (sha1Words x).bytes

/-! ### HMAC -/

/-- The HMAC block size (R178). -/
def hmacBlock : Nat := 64

/-- `K0(K)` (R178): a key longer than a block is hashed first; the rest is zero-filled. -/
def hmacKeyBlock (k : List Byte) : List Byte :=
  if k.length > hmacBlock then sha1 k ++ List.replicate (hmacBlock - (sha1 k).length) 0#8
  else k ++ List.replicate (hmacBlock - k.length) 0#8

/-- Bytewise exclusive or with a repeated pad byte (R8, R179). -/
def xorPad (pad : Byte) (bs : List Byte) : List Byte := bs.map (· ^^^ pad)

/-- `HMAC_SHA1(K, M)` (R179). -/
def hmacSha1 (k m : List Byte) : List Byte :=
  sha1 (xorPad 0x5C#8 (hmacKeyBlock k) ++ sha1 (xorPad 0x36#8 (hmacKeyBlock k) ++ m))

end Sys2Proof.Machine
end

