-- ==== Sys2Proof/Machine/Hotp.lean ====
section
/-! DEFINITION. Dynamic truncation and the HOTP command (42_hotp_engine.md R170, R171, R181 to R184). -/

namespace Sys2Proof.Machine

/-- What `HotpValue` returns: digest, offset, truncated value, code (R170). -/
structure HotpResult where
  digest : List Byte
  offset : BitVec 4
  trunc : BitVec 31
  code : Word
  deriving DecidableEq, Repr

/-- `off = D[19] & 0x0F` (R181). -/
def truncOffset (d : List Byte) : BitVec 4 := (d.getD 19 0#8).extractLsb' 0 4

/-- `Trunc31(D, off)`: four bytes read big-endian, the top bit cleared (R182, 90_conflicts.md C1). -/
def trunc31 (d : List Byte) (off : Nat) : BitVec 31 :=
  (d.getD off 0#8).extractLsb' 0 7 ++ d.getD (off + 1) 0#8 ++ d.getD (off + 2) 0#8 ++ d.getD (off + 3) 0#8

/-- `code = p mod 10^w` (R183). -/
def codeOf (p : BitVec 31) (w : Nat) : Word := BitVec.ofNat 32 (p.toNat % 10 ^ w)

/-- Truncation of a digest to a code of `w` digits (R170). -/
def hotpOfDigest (d : List Byte) (w : Nat) : HotpResult where
  digest := d
  offset := truncOffset d
  trunc := trunc31 d (truncOffset d).toNat
  code := codeOf (trunc31 d (truncOffset d).toNat) w

/-- `HotpValue(K, c, w)` (R170, R171). -/
def hotpValue (k : List Byte) (c : DWord) (w : Nat) : HotpResult := hotpOfDigest (hmacSha1 k (be64 c)) w

/-- The result writes of HOTP and TOTP: DIGEST0..4, OFFSET, TRUNC, CODE (R184, 44_totp_facade.md R231). -/
def State.storeHotp (s : State) (r : HotpResult) : State :=
  { s with digest := Digest.ofBytes r.digest, offset := r.offset, trunc := r.trunc, code := r.code }

/-- The writes of HOTP, or its error (R184). -/
def hotpFromCounter (s : State) : Except CmdError State :=
  if s.status.keyValid then .ok (s.storeHotp (hotpValue s.keyBytes s.counter s.act.width.toNat))
  else .error .noKey

/-- HOTP (R184). -/
def execHotp (s : State) : Host.Outcome State Fault Refusal :=
  .next (s.completeWith 0x5#4 (hotpFromCounter s))

end Sys2Proof.Machine
end

