-- ==== Sys2Proof/Machine/Time.lean ====
section
/-! DEFINITION. The time-step counter calculator and the TIME command (43_time_step.md). -/

namespace Sys2Proof.Machine

/-- The checks on a time sample: unavailable first, then before the start (R211, R212). -/
def checkSample (x : Sample) (start : DWord) : Except CmdError DWord :=
  if x.valid = false then .error .timeUnavailable
  else if x.time.toNat < start.toNat then .error .timeBeforeStart
  else .ok x.time

/-- `Step(t, start, step) = (t - start) div step` (R213); the active step size is never 0 (40_configuration.md R121;
notes/assumptions/9.md). -/
def stepCount (t : DWord) (c : OtpConfig) : DWord :=
  BitVec.ofNat 64 ((t.toNat - c.start.toNat) / c.step.toNat)

/-- `Remain(t, start, step) = step - ((t - start) mod step)` (R214). -/
def secondsRemaining (t : DWord) (c : OtpConfig) : DWord :=
  BitVec.ofNat 64 (c.step.toNat - (t.toNat - c.start.toNat) % c.step.toNat)

/-- The result writes of TIME and TOTP for a checked time `t`: TSAMP, STEP, REMAIN (R215, 44_totp_facade.md R231). -/
def State.storeTime (s : State) (t : DWord) : State :=
  { s with tsamp := t, stepReg := stepCount t s.act, remain := secondsRemaining t s.act }

/-- The writes of TIME, or its error (R215). -/
def timeFromSample (s : State) : Except CmdError State :=
  match checkSample s.commandSample s.act.start with
  | .error e => .error e
  | .ok t => .ok (s.storeTime t)

/-- TIME (R215). -/
def execTime (s : State) : Host.Outcome State Fault Refusal :=
  .next (s.completeWith 0x6#4 (timeFromSample s))

end Sys2Proof.Machine
end

