-- ==== Sys2Proof/Machine/Totp.lean ====
section
/-! DEFINITION. The TOTP command (44_totp_facade.md). -/

namespace Sys2Proof.Machine

/-- The writes of TOTP, or its first error in the order clock, start time, key (R231, R232). -/
def totpFromSample (s : State) : Except CmdError State :=
  match checkSample s.commandSample s.act.start with
  | .error e => .error e
  | .ok t =>
    if s.status.keyValid then
      .ok ((s.storeTime t).storeHotp (hotpValue s.keyBytes (stepCount t s.act) s.act.width.toNat))
    else .error .noKey

/-- TOTP (R231). -/
def execTotp (s : State) : Host.Outcome State Fault Refusal :=
  .next (s.completeWith 0x7#4 (totpFromSample s))

end Sys2Proof.Machine
end

