-- ==== Sys2Proof/Machine/Dispatch.lean ====
section
/-! DEFINITION. What each command does when the engine completes it (10_state.md R45), one arm per constructor. -/

namespace Sys2Proof.Machine

/-- `Exec(w, S, tsample)` and the completion of the command, in one step (R45). -/
def exec (i : Instr) (s : State) : Host.Outcome State Fault Refusal :=
  match i with
  | .cfgCommit => Sys2Proof.Machine.execCfgCommit s
  | .cfgDefault => Sys2Proof.Machine.execCfgDefault s
  | .keyB32 => Sys2Proof.Machine.execKeyB32 s
  | .keyRaw => Sys2Proof.Machine.execKeyRaw s
  | .hotp => Sys2Proof.Machine.execHotp s
  | .time => Sys2Proof.Machine.execTime s
  | .totp => Sys2Proof.Machine.execTotp s
  | .illegal op rsvd => Sys2Proof.Machine.execIllegal op rsvd s

end Sys2Proof.Machine
end

