-- ==== Sys2Proof/Machine/Window.lean ====
section
/-! DEFINITION. The register window as the host sees it: the register map (10_state.md R21), what each register reads
and what a write does (R22 to R46, 20_memory.md R70 to R80), the input freeze and the unspecified reads while a command
runs (70_reset_and_hazards.md R296, R297). -/

namespace Sys2Proof.Machine

/-- The named registers of the window (R21). -/
inductive Reg where
  | id | param | ctrl | status | cmd | err
  | cfgStartLo | cfgStartHi | cfgStepLo | cfgStepHi | cfgWidth
  | actStartLo | actStartHi | actStepLo | actStepHi | actWidth
  | nowLo | nowHi | counterLo | counterHi | textLen | keyLen
  | tsampLo | tsampHi | stepLo | stepHi | remainLo | remainHi
  | digest0 | digest1 | digest2 | digest3 | digest4 | offset | trunc | code
  deriving DecidableEq, Repr

/-- The register map: each register with its offset (R21). -/
def registerMap : List (Nat × Reg) :=
  [(0x000, .id), (0x004, .param), (0x008, .ctrl), (0x00C, .status), (0x010, .cmd), (0x014, .err)] ++
  [(0x020, .cfgStartLo), (0x024, .cfgStartHi), (0x028, .cfgStepLo), (0x02C, .cfgStepHi), (0x030, .cfgWidth)] ++
  [(0x040, .actStartLo), (0x044, .actStartHi), (0x048, .actStepLo), (0x04C, .actStepHi), (0x050, .actWidth)] ++
  [(0x060, .nowLo), (0x064, .nowHi), (0x068, .counterLo), (0x06C, .counterHi), (0x070, .textLen), (0x074, .keyLen)] ++
  [(0x080, .tsampLo), (0x084, .tsampHi), (0x088, .stepLo), (0x08C, .stepHi), (0x090, .remainLo), (0x094, .remainHi)] ++
  [(0x0A0, .digest0), (0x0A4, .digest1), (0x0A8, .digest2), (0x0AC, .digest3), (0x0B0, .digest4)] ++
  [(0x0B4, .offset), (0x0B8, .trunc), (0x0BC, .code)]

/-- What an offset of the window names. -/
inductive Target where
  /-- A register of the map (R21). -/
  | reg (r : Reg)
  /-- The word INBUFj (R46). -/
  | inbuf (j : Nat)
  /-- An aligned offset the map does not list (R73). -/
  | reserved
  /-- An offset with `off[1:0]` not 0 (R72). -/
  | misaligned
  deriving DecidableEq, Repr

/-- Decoding of a window offset (R21, R70, R72, R73). -/
def target (off : BitVec 9) : Target :=
  if off.toNat % 4 ≠ 0 then .misaligned
  else if Config.inbufBase ≤ off.toNat then .inbuf ((off.toNat - Config.inbufBase) / 4)
  else
    match registerMap.lookup off.toNat with
    | some r => .reg r
    | none => .reserved

/-- The offset at which a platform address reaches the port, if it lies in the window at `OTP_BASE` (R70). -/
def portOffset (addr : Nat) : Option (BitVec 9) :=
  if Config.otpBase ≤ addr ∧ addr < Config.otpBase + Config.window then some (BitVec.ofNat 9 (addr - Config.otpBase))
  else none

/-! ### Reads -/

/-- The value a register holds, as a read returns it when no command is running (R22 to R44; CMD reads 0, R32). -/
def Reg.value (r : Reg) (s : State) : Word :=
  match r with
  | .id => Config.idValue
  | .param => Config.paramValue
  | .ctrl => s.ctrl.word
  | .status => s.status.word
  | .cmd => 0#32
  | .err => s.err.word
  | .cfgStartLo => loHalf s.cfg.start
  | .cfgStartHi => hiHalf s.cfg.start
  | .cfgStepLo => loHalf s.cfg.step
  | .cfgStepHi => hiHalf s.cfg.step
  | .cfgWidth => s.cfg.width.zeroExtend 32
  | .actStartLo => loHalf s.act.start
  | .actStartHi => hiHalf s.act.start
  | .actStepLo => loHalf s.act.step
  | .actStepHi => hiHalf s.act.step
  | .actWidth => s.act.width.zeroExtend 32
  | .nowLo => loHalf s.now
  | .nowHi => hiHalf s.now
  | .counterLo => loHalf s.counter
  | .counterHi => hiHalf s.counter
  | .textLen => s.textLen.zeroExtend 32
  | .keyLen => s.keyLen.zeroExtend 32
  | .tsampLo => loHalf s.tsamp
  | .tsampHi => hiHalf s.tsamp
  | .stepLo => loHalf s.stepReg
  | .stepHi => hiHalf s.stepReg
  | .remainLo => loHalf s.remain
  | .remainHi => hiHalf s.remain
  | .digest0 => s.digest.h0
  | .digest1 => s.digest.h1
  | .digest2 => s.digest.h2
  | .digest3 => s.digest.h3
  | .digest4 => s.digest.h4
  | .offset => s.offset.zeroExtend 32
  | .trunc => s.trunc.zeroExtend 32
  | .code => s.code

/-- The bits a result register can read as 1 (R42 to R44); none for a register that is no result register. Only the
result registers are unspecified while a command runs (70_reset_and_hazards.md R297). -/
def Reg.resultMask (r : Reg) : Option Word :=
  match r with
  | .tsampLo => some 0xFFFFFFFF#32
  | .tsampHi => some 0xFFFFFFFF#32
  | .stepLo => some 0xFFFFFFFF#32
  | .stepHi => some 0xFFFFFFFF#32
  | .remainLo => some 0xFFFFFFFF#32
  | .remainHi => some 0xFFFFFFFF#32
  | .digest0 => some 0xFFFFFFFF#32
  | .digest1 => some 0xFFFFFFFF#32
  | .digest2 => some 0xFFFFFFFF#32
  | .digest3 => some 0xFFFFFFFF#32
  | .digest4 => some 0xFFFFFFFF#32
  | .offset => some 0x0000000F#32
  | .trunc => some 0x7FFFFFFF#32
  | .code => some 0x3FFFFFFF#32
  | _ => none

/-- A read of a register: a fresh free value with the read-as-zero bits 0 for a result register while BUSY, else the
register's value (R297, U1). -/
def State.readReg (s : State) (r : Reg) : State :=
  match s.status.busy, r.resultMask with
  | true, some mask => { s.respond (Config.freeWord s.draws &&& mask) false with draws := s.draws + 1 }
  | true, none => s.respond (r.value s) false
  | false, _ => s.respond (r.value s) false

/-- `MemRead(off, 4)` (20_memory.md R71 to R74, R79). -/
def State.busRead (s : State) (off : BitVec 9) : State :=
  match target off with
  | .reg r => s.readReg r
  | .inbuf j => s.respond (inbufWord s.inbuf j) false
  | .reserved => s.respond 0#32 false
  | .misaligned => s.respond 0#32 true

/-! ### Writes -/

/-- Whether a write to a register is dropped while BUSY: CMD and the input registers (R296). -/
def Reg.frozenWhileBusy (r : Reg) : Bool :=
  match r with
  | .cmd => true
  | .cfgStartLo => true
  | .cfgStartHi => true
  | .cfgStepLo => true
  | .cfgStepHi => true
  | .cfgWidth => true
  | .nowLo => true
  | .nowHi => true
  | .counterLo => true
  | .counterHi => true
  | .textLen => true
  | _ => false

/-- A write that is not dropped: it stores the bits the register keeps, starts a command, clears W1C bits, or is ignored
by a read-only register (R24, R25, R32, R34 to R40, 20_memory.md R74). -/
def State.storeReg (s : State) (r : Reg) (v : Word) : State :=
  match r with
  | .ctrl => { s with ctrl := Ctrl.ofWord v }
  | .status => { s with status := s.status.written v }
  | .cmd => s.accept v
  | .cfgStartLo => { s with cfg := { s.cfg with start := setLoHalf s.cfg.start v } }
  | .cfgStartHi => { s with cfg := { s.cfg with start := setHiHalf s.cfg.start v } }
  | .cfgStepLo => { s with cfg := { s.cfg with step := setLoHalf s.cfg.step v } }
  | .cfgStepHi => { s with cfg := { s.cfg with step := setHiHalf s.cfg.step v } }
  | .cfgWidth => { s with cfg := { s.cfg with width := v.extractLsb' 0 4 } }
  | .nowLo => { s with now := setLoHalf s.now v }
  | .nowHi => { s with now := setHiHalf s.now v }
  | .counterLo => { s with counter := setLoHalf s.counter v }
  | .counterHi => { s with counter := setHiHalf s.counter v }
  | .textLen => { s with textLen := v.extractLsb' 0 9 }
  | _ => s

/-- A write to a register: dropped with OVR set if the register is frozen and a command runs, else stored (R296). -/
def State.writeReg (s : State) (r : Reg) (v : Word) : State :=
  if s.status.busy && r.frozenWhileBusy then s.dropWrite else s.storeReg r v

/-- A write to INBUFj, frozen while a command runs (R46, R75, R296). -/
def State.writeInbuf (s : State) (j : Nat) (v : Word) : State :=
  if s.status.busy then s.dropWrite else { s with inbuf := writeInbufWord s.inbuf j v }

/-- `MemWrite(off, 4, v)` (20_memory.md R71 to R74, R80); a write carries no data back (notes/assumptions/13.md). -/
def State.busWrite (s : State) (off : BitVec 9) (v : Word) : State :=
  match target off with
  | .reg r => (s.writeReg r v).respond 0#32 false
  | .inbuf j => (s.writeInbuf j v).respond 0#32 false
  | .reserved => s.respond 0#32 false
  | .misaligned => s.respond 0#32 true

/-- A transfer on the host port; while `rst` is asserted it is ignored: data 0, no effect, no error (R290). -/
def State.portTransfer (s : State) (off : BitVec 9) (x : Transfer) : State :=
  if s.rst then s.respond 0#32 false
  else
    match x with
    | .read => s.busRead off
    | .write v => s.busWrite off v

end Sys2Proof.Machine
end

