-- ==== Sys2Proof/Machine/Schedule.lean ====
section
/-! DEFINITION. One step of the block: what happens next is the head of the schedule `State.events` (20_memory.md R83:
host accesses in arrival order, acceptance and completion each one atomic step; notes/assumptions/1.md, 2.md). -/

namespace Sys2Proof.Machine

/-- The engine's completion step: it runs the command that the word in PEND decodes to (10_state.md R45). With nothing
pending, or while `rst` is asserted, there is nothing to complete (70_reset_and_hazards.md R290;
notes/assumptions/16.md). -/
def runPending (s : State) : Host.Outcome State Fault Refusal :=
  if s.rst then .next s
  else
    match s.pend with
    | none => .next s
    | some p => exec (decode p.word) s

/-- A transfer at a platform address: one outside the window does not reach the block (R70; notes/assumptions/19.md). -/
def State.platformTransfer (s : State) (addr : Nat) (x : Transfer) : State :=
  match portOffset addr with
  | some off => s.portTransfer off x
  | none => s

/-- The step that an event is. -/
def runEvent (e : Event) (s : State) : Host.Outcome State Fault Refusal :=
  match e with
  | .port off x => .next (s.portTransfer off x)
  | .platform addr x => .next (s.platformTransfer addr x)
  | .timePort valid t => .next (s.driveTime valid t)
  | .rst true => .next s.assertReset
  | .rst false => .next s.releaseReset
  | .complete => runPending s
  | .idle => .next s
  | .powerDown => .refused .powerCycle

/-- The state in which a step acts: the scheduled events after this one, and no transfer answered yet. -/
def State.begin (s : State) (rest : List Event) : State := { s with events := rest, resp := none }

/-- One step: the next event of the schedule; with none left the engine completes a pending command (R306), else the
block is idle and holds all state (60_exceptions.md R269). -/
def runNext (s : State) : Host.Outcome State Fault Refusal :=
  match s.events with
  | [] => runPending (s.begin [])
  | e :: rest => runEvent e (s.begin rest)

/-- The state in which the engine has just accepted the word `w` and completes it in the next step: `w` is accepted
(R45), `rst` is released, and the completion is the next event (notes/assumptions/10.md). -/
def State.placeCommand (s : State) (w : Word) : State :=
  { s.accept w with rst := false, events := .complete :: s.events }

end Sys2Proof.Machine
end

