-- ==== Sys2Proof/Machine/Step.lean ====
section
/-! DEFINITION. The step of the machine and the placing of a command word where the step takes it: the engine fetches
nothing (10_state.md R20); the word of its next command is in PEND (R45). -/

namespace Sys2Proof.Machine

/-- One step of the block (Machine/Schedule.lean). -/
def step (s : State) : Host.Outcome State Fault Refusal := runNext s

/-- `s` with the command whose bits are `w` accepted and due to complete in the very next step; bits above `nbits`, and
above a command's 32, are 0 (30_encoding.md R100; notes/assumptions/10.md). -/
def State.withFetchWord (s : State) (nbits w : Nat) : State :=
  s.placeCommand (BitVec.ofNat 32 (w % 2 ^ min nbits 32))

end Sys2Proof.Machine
end

