-- ==== Sys2Proof/Safety.lean ====
section
/-! DEFINITION. The terms the claims use: which step is which (a transfer, a completion, a reset), what a finished
command looks like, the invariant of the block, and the RFC 4648 encoder that states the base32 round trip (the block
itself has no encoder, 00_scope.md R4). -/

namespace Sys2Proof.Machine

/-! ### What the next step is -/

/-- The transfer the next step performs on the host port, if it performs one (20_memory.md R70, R71); while `rst` is
asserted none is performed (70_reset_and_hazards.md R290). -/
def State.incoming (s : State) : Option (BitVec 9 × Transfer) :=
  if s.rst then none
  else
    match s.events with
    | .port off x :: _ => some (off, x)
    | .platform addr x :: _ => (portOffset addr).map fun off => (off, x)
    | _ => none

/-- The command the next step completes, if it completes one (10_state.md R45). -/
def State.completing (s : State) : Option Instr :=
  if s.rst then none
  else
    match s.events with
    | [] => s.pend.map fun p => decode p.word
    | .complete :: _ => s.pend.map fun p => decode p.word
    | _ => none

/-- The next step asserts `rst` (R290). -/
def State.resetting (s : State) : Bool :=
  match s.events with
  | .rst true :: _ => true
  | _ => false

/-- The schedule holds no power-down (60_exceptions.md R269, U7): every step of such a run answers a next state. -/
def State.powered (s : State) : Prop := Event.powerDown ∉ s.events

/-! ### What a completed command leaves -/

/-- The state `s` after a command completed without an error, all its result writes already in `s` (10_state.md R45). -/
def State.endsWell (s : State) : State :=
  { s with
    status := { s.status with busy := false, done := true, valid := true, err := false }
    err := { code := 0#4, detail := 0#4, op := 0#4 }
    pend := none }

/-- The state `s` after a command of opcode `op` completed with the error `code.detail` (60_exceptions.md R254). -/
def State.endsInError (s : State) (code detail op : BitVec 4) : State :=
  { s with
    status := { s.status with busy := false, done := true, valid := false, err := true }
    err := { code := code, detail := detail, op := op }
    pend := none }

/-- The sample a TIME or TOTP takes at acceptance (43_time_step.md R210), written out. -/
def State.sampleNow (s : State) : Sample :=
  if s.ctrl.tsrc = true then { valid := true, time := s.now } else { valid := s.timeValid, time := s.timeIn }

/-! ### The invariant -/

/-- A configuration the engine may compute with (40_configuration.md R121). -/
def OtpConfig.Valid (c : OtpConfig) : Prop := 0 < c.step.toNat ∧ 1 ≤ c.width.toNat ∧ c.width.toNat ≤ 9

/-- `s` holds R51's reset values in every register: what R290 holds while `rst` is asserted. INBUF is unspecified, the
port levels are the platform's, and the schedule and the draws are the model's. -/
def State.heldInReset (s : State) : Prop :=
  s = { State.reset with
        inbuf := s.inbuf, rst := s.rst, timeValid := s.timeValid, timeIn := s.timeIn, resp := s.resp,
        events := s.events, draws := s.draws }

/-- What holds of the block at every moment. -/
structure State.Inv (s : State) : Prop where
  /-- INBUF has its canonical form (notes/assumptions/3.md). -/
  memory : s.inbuf.wf = true
  /-- The active configuration is valid (40_configuration.md R121). -/
  active : s.act.Valid
  /-- BUSY is 1 exactly while a command is pending (10_state.md R26, R45). -/
  busy_pending : s.status.busy = s.pend.isSome
  /-- While BUSY the flags of the last completion are clear (R27 to R29). -/
  busy_flags : s.status.busy = true → s.status.done = false ∧ s.status.valid = false ∧ s.status.err = false
  /-- VALID and ERR are never both 1 (R28, R29). -/
  one_report : (s.status.valid && s.status.err) = false
  /-- After a completion exactly one of VALID and ERR is 1 (R29). -/
  done_report : s.status.done = true → (s.status.valid || s.status.err) = true
  /-- ERR reads 0 unless STATUS.ERR is 1 (R33). -/
  no_report : s.status.err = false → s.err = { code := 0#4, detail := 0#4, op := 0#4 }
  /-- A reported error is one of the table's (60_exceptions.md R252). -/
  report : s.status.err = true → ∃ e : CmdError, s.err.code = e.code ∧ s.err.detail = e.detail
  /-- PEND holds a time sample exactly for TIME and TOTP (R45). -/
  sample : ∀ p, s.pend = some p → (p.sample.isSome = true ↔ decode p.word = .time ∨ decode p.word = .totp)
  /-- KEY has 160 bytes (R47). -/
  key_size : s.key.length = 160
  /-- KEY_LEN is at most KEY_CAP (R41). -/
  key_len : s.keyLen.toNat ≤ 160
  /-- KEY[KEY_LEN..160) is zero (R47). -/
  key_fill : s.key.drop s.keyLen.toNat = List.replicate (160 - s.keyLen.toNat) 0#8
  /-- Without a key there is no code: the code results still hold their reset values (R31, R54). -/
  no_key : s.status.keyValid = false →
    s.keyLen = 0#8 ∧ s.digest = { h0 := 0#32, h1 := 0#32, h2 := 0#32, h3 := 0#32, h4 := 0#32 } ∧
      s.offset = 0#4 ∧ s.trunc = 0#31 ∧ s.code = 0#32
  /-- OFFSET = DIGEST4[3:0] (42_hotp_engine.md R185). -/
  offset_digest : s.offset = s.digest.h4.extractLsb' 0 4
  /-- TRUNC is the truncation of the digest at OFFSET (R182). -/
  trunc_digest : s.trunc = trunc31 s.digest.bytes s.offset.toNat
  /-- CODE is below 10^9 and no larger than TRUNC (R44, R183). -/
  code_bound : s.code.toNat < 10 ^ 9 ∧ s.code.toNat ≤ s.trunc.toNat
  /-- While `rst` is asserted the state is the reset state (70_reset_and_hazards.md R290). -/
  held : s.rst = true → s.heldInReset

/-! ### The RFC 4648 encoder (41_secret_codec.md R145, 93_implementation_defined.md G9) -/

/-- The symbol of a 5-bit value (R141). -/
def symbolByte (v : Nat) : Byte := if v < 26 then BitVec.ofNat 8 (0x41 + v) else BitVec.ofNat 8 (0x32 + (v - 26))

/-- `n` symbols of a value, the most significant first. -/
def symbolsOf : Nat → Nat → List Byte
  | 0, _ => []
  | n + 1, v => symbolByte (v / 32 ^ n % 32) :: symbolsOf n v

/-- The 8 symbols of a group of 1 to 5 bytes: data symbols with zero unused bits, then padding. -/
def encodeGroup (bs : List Byte) : List Byte :=
  symbolsOf ((8 * bs.length + 4) / 5) (fromBE bs * 2 ^ (5 * ((8 * bs.length + 4) / 5) - 8 * bs.length)) ++
    List.replicate (8 - (8 * bs.length + 4) / 5) padByte

/-- The groups of a byte sequence, 5 bytes each, the last one shorter. -/
def encodeGroups : Nat → List Byte → List Byte
  | 0, _ => []
  | n + 1, bs => encodeGroup (bs.take 5) ++ encodeGroups n (bs.drop 5)

/-- The RFC 4648 base32 text of a byte sequence. -/
def base32Encode (bs : List Byte) : List Byte := encodeGroups ((bs.length + 4) / 5) bs

end Sys2Proof.Machine
end

