-- ==== Sys2Proof/Certificates/Slice0/Obligations.lean ====
section
/-! DEFINITION. What is claimed of the OTP engine, for the provers. Each statement's docstring names the rules it
formalises. A statement about a state holds of every state that meets its hypotheses, reached by a run or not. -/

open Sys2Proof Sys2Proof.Machine

/-! ### Encoding (30_encoding.md) -/

/-- Decoding the word of a well-formed command gives the command back, every field at every value (R101, R103, R104). -/
def Obligations.DecodeOfEncodeReturnsCommand : Prop :=
  ∀ i : Instr, i.wf = true → decode (encode i) = i

/-- Every 32-bit word stands for one well-formed command, whose word it is: no bit of a word is dropped (R100, R104). -/
def Obligations.EncodeOfDecodeReturnsWord : Prop :=
  ∀ w : Word, encode (decode w) = w ∧ (decode w).wf = true

/-- R104: reserved bits first (detail 2), then OP 1..7 is a command, else illegal (detail 1); the legal words are
exactly 1 to 7. -/
def Obligations.LegalWordsAreExactlyOneToSeven : Prop :=
  (∀ w : Word, w.extractLsb' 4 28 ≠ 0#28 →
      decode w = .illegal (w.extractLsb' 0 4) (w.extractLsb' 4 28) ∧
        (illegalError (w.extractLsb' 4 28)).code = 5#4 ∧ (illegalError (w.extractLsb' 4 28)).detail = 2#4) ∧
  (∀ w : Word, w.extractLsb' 4 28 = 0#28 → (w.extractLsb' 0 4 = 0#4 ∨ 8 ≤ (w.extractLsb' 0 4).toNat) →
      decode w = .illegal (w.extractLsb' 0 4) 0#28 ∧ (illegalError 0#28).code = 5#4 ∧ (illegalError 0#28).detail = 1#4) ∧
  (decode 1#32 = .cfgCommit ∧ decode 2#32 = .cfgDefault ∧ decode 3#32 = .keyB32 ∧ decode 4#32 = .keyRaw ∧
    decode 5#32 = .hotp ∧ decode 6#32 = .time ∧ decode 7#32 = .totp) ∧
  (∀ w : Word, (∀ op rsvd, decode w ≠ .illegal op rsvd) ↔ 1 ≤ w.toNat ∧ w.toNat ≤ 7)

/-- Words written out from R103 and from the encoding vectors of 95_test_vectors.md section 2.8 decode to what they
stand for. A sanity statement. -/
def Obligations.WrittenWordsDecode : Prop :=
  decodeTableWord 32 0x00000005 = some .hotp ∧ decodeTableWord 32 0x00000007 = some .totp ∧
  decodeTableWord 32 0x00000015 = some (.illegal 5#4 1#28) ∧ decodeTableWord 32 0x80000001 = some (.illegal 1#4 0x8000000#28) ∧
  decodeTableWord 32 0x0000000F = some (.illegal 15#4 0#28) ∧ decodeTableWord 33 5 = none

/-! ### The step and the schedule (10_state.md R45, 20_memory.md R83) -/

/-- A step runs the decoded command: when the engine completes the pending word, at the event `complete` or with no
event left, the step is `exec` of the command the word decodes to. Around it the step only takes the event off the
schedule and clears the port's response (the model's own fields, log 1 and log 13). -/
def Obligations.StepRunsThePendingCommand : Prop :=
  ∀ (s : State) (p : Pending) (rest : List Event), s.rst = false → s.pend = some p →
    (s.events = .complete :: rest → step s = exec (decode p.word) { s with events := rest, resp := none }) ∧
    (s.events = [] → step s = exec (decode p.word) { s with events := [], resp := none })

/-- A word placed where the engine takes its next command is run by the very next step, on the state its acceptance
leaves (R45). The model's choices in it: the placing itself (log 10), the cleared response (log 13), and that a word
decoded as illegal takes no sample (log 15). -/
def Obligations.PlacedWordRunsNext : Prop :=
  ∀ (s : State) (w : Word),
    step (s.withFetchWord 32 w.toNat) =
      exec (decode w)
        { s with
          status := { s.status with busy := true, done := false, valid := false, err := false }
          err := { code := 0#4, detail := 0#4, op := 0#4 }
          pend := some { word := w
                         sample := if decode w = .time ∨ decode w = .totp then some s.sampleNow else none }
          rst := false
          resp := none }

/-- No step is stuck and none faults: it answers a next state unless the platform powers the block down, which the spec
leaves unspecified (93_implementation_defined.md section 1 and U7; the refusal is log 11). The steps that are no access,
completion or reset are given whole: the time port takes the driven levels and nothing else changes (R48; also while `rst`
is asserted, log 12), and an idle step holds all state (R269). The schedule and the cleared response are the model's own
(log 1, log 13). -/
def Obligations.EveryStepAnswersNextUnlessPoweredDown : Prop :=
  ∀ s : State,
    ((∃ rest, s.events = .powerDown :: rest) → step s = .refused .powerCycle) ∧
    ((¬ ∃ rest, s.events = .powerDown :: rest) → ∃ t, step s = .next t) ∧
    (∀ (v : Bool) (x : DWord) (rest : List Event), s.events = .timePort v x :: rest →
      step s = .next { s with timeValid := v, timeIn := x, events := rest, resp := none }) ∧
    (∀ rest : List Event, s.events = .idle :: rest → step s = .next { s with events := rest, resp := none }) ∧
    (s.events = [] → s.pend = none → step s = .next { s with events := [], resp := none })

/-- R32: a write to CMD while idle is accepted (R45's acceptance, written out), a write while busy is dropped and sets
OVR, and a read of CMD returns 0 and has no effect. The model's choices in it: the data 0 a write is answered with
(log 13), and that a word decoded as illegal takes no sample (log 15). -/
def Obligations.CommandWriteIsAcceptedOrDropped : Prop :=
  ∀ (s : State) (w : Word) (rest : List Event), s.rst = false →
    (s.events = .port 0x010#9 (.write w) :: rest → s.status.busy = false →
      step s = .next
        { s with
          status := { s.status with busy := true, done := false, valid := false, err := false }
          err := { code := 0#4, detail := 0#4, op := 0#4 }
          pend := some { word := w
                         sample := if decode w = .time ∨ decode w = .totp then some s.sampleNow else none }
          events := rest
          resp := some { data := 0#32, error := false } }) ∧
    (s.events = .port 0x010#9 (.write w) :: rest → s.status.busy = true →
      step s = .next
        { s with status := { s.status with ovr := true }, events := rest, resp := some { data := 0#32, error := false } }) ∧
    (s.events = .port 0x010#9 .read :: rest →
      step s = .next { s with events := rest, resp := some { data := 0#32, error := false } })

/-- R210: TIME and TOTP sample once, at acceptance, NOW if TSRC is 1 and the port otherwise; later changes of the port,
of NOW or of TSRC change nothing the command does. -/
def Obligations.TimeIsSampledOnceAtAcceptance : Prop :=
  (∀ (s : State) (w : Word) (rest : List Event), s.rst = false → s.status.busy = false →
    s.events = .port 0x010#9 (.write w) :: rest → (decode w = .time ∨ decode w = .totp) →
    ∃ t, step s = .next t ∧
      (s.ctrl.tsrc = true → t.pend = some { word := w, sample := some { valid := true, time := s.now } }) ∧
      (s.ctrl.tsrc = false → t.pend = some { word := w, sample := some { valid := s.timeValid, time := s.timeIn } })) ∧
  (∀ (i : Instr) (s : State) (w : Word) (x : Sample) (v : Bool) (u n : DWord) (c : Ctrl),
    (i = .time ∨ i = .totp) → s.pend = some { word := w, sample := some x } →
    ∃ t, exec i s = .next t ∧
      exec i { s with timeValid := v, timeIn := u, now := n, ctrl := c } =
        .next { t with timeValid := v, timeIn := u, now := n, ctrl := c })

/-- Every accepted command completes unless a reset abandons it (R306, R292): from a state with a command pending and no
power-down in the schedule, the block is idle after at most one step more than the schedule has events; and if the
schedule holds no assertion of `rst`, the last of these steps is the completion of the pending command, with DONE 1. That
the engine completes a command when the schedule runs out is the model's form of the fairness R306 assumes (log 2). -/
def Obligations.EveryPendingCommandCompletes : Prop :=
  ∀ s : State, s.pend.isSome = true → s.status.busy = true → s.rst = false → s.powered →
    ∃ k t, k ≤ s.events.length + 1 ∧ Sys2Proof.core.run k s = .next t ∧ t.status.busy = false ∧ t.pend = none ∧
      (.rst true ∉ s.events → t.status.done = true ∧
        ∃ p u, s.pend = some p ∧ u.pend = some p ∧ exec (decode p.word) u = .next t)

/-- R87, R296: while a command runs, no step but its completion or a reset changes PEND, any input of a command, the
key, the active configuration or a result register. -/
def Obligations.RunningCommandIsFrozen : Prop :=
  ∀ s t : State, s.status.busy = true → s.pend.isSome = true → s.rst = false → step s = .next t →
    s.completing = none → s.resetting = false →
    t.pend = s.pend ∧ t.status.busy = true ∧ t.cfg = s.cfg ∧ t.act = s.act ∧ t.now = s.now ∧ t.counter = s.counter ∧
      t.textLen = s.textLen ∧ t.inbuf = s.inbuf ∧ t.key = s.key ∧ t.keyLen = s.keyLen ∧
      t.status.keyValid = s.status.keyValid ∧ t.err = s.err ∧ t.tsamp = s.tsamp ∧ t.stepReg = s.stepReg ∧
      t.remain = s.remain ∧ t.digest = s.digest ∧ t.offset = s.offset ∧ t.trunc = s.trunc ∧ t.code = s.code

/-! ### Completion and errors (10_state.md R26 to R31, 60_exceptions.md) -/

/-- R254, R256: a command that ends with an error changes STATUS, ERR and PEND and nothing else, and ERR reads
`(OP << 16) | (DETAIL << 8) | CODE`; `irq` is then IE. -/
def Obligations.ErrorEntryIsAllOrNothing : Prop :=
  ∀ (i : Instr) (s t : State), exec i s = .next t → t.status.err = true →
    (∃ e : CmdError, t = s.endsInError e.code e.detail i.op) ∧
    t.err.word.toNat = i.op.toNat * 2 ^ 16 + t.err.detail.toNat * 2 ^ 8 + t.err.code.toNat ∧
    t.irq = s.ctrl.ie

/-- R251, R252: which CODE.DETAIL pairs each command reports; CFG_DEFAULT reports none. -/
def Obligations.ReportedErrorsAreTheTableRows : Prop :=
  ∀ (i : Instr) (s t : State), exec i s = .next t → t.status.err = true →
    (i = .cfgCommit ∧ t.err.code = 3#4 ∧ (t.err.detail = 1#4 ∨ t.err.detail = 2#4 ∨ t.err.detail = 3#4)) ∨
    (i = .keyB32 ∧ t.err.code = 1#4 ∧
      (t.err.detail = 1#4 ∨ t.err.detail = 2#4 ∨ t.err.detail = 3#4 ∨ t.err.detail = 4#4)) ∨
    (i = .keyRaw ∧ t.err.code = 4#4 ∧ t.err.detail = 2#4) ∨
    (i = .hotp ∧ t.err.code = 4#4 ∧ t.err.detail = 1#4) ∨
    (i = .time ∧ t.err.code = 2#4 ∧ (t.err.detail = 1#4 ∨ t.err.detail = 2#4)) ∨
    (i = .totp ∧ ((t.err.code = 2#4 ∧ (t.err.detail = 1#4 ∨ t.err.detail = 2#4)) ∨
      (t.err.code = 4#4 ∧ t.err.detail = 1#4))) ∨
    (∃ op rsvd, i = .illegal op rsvd ∧ t.err.code = 5#4 ∧ t.err.detail = if rsvd = 0#28 then 1#4 else 2#4)

/-- R26 to R31, R260: every completion clears BUSY and PEND, sets DONE, sets exactly one of VALID and ERR, leaves OVR,
sets KEY_VALID only for a successful key command, and raises `irq` exactly if IE is 1. -/
def Obligations.CompletionSetsTheFlags : Prop :=
  ∀ (i : Instr) (s t : State), exec i s = .next t →
    t.status.busy = false ∧ t.pend = none ∧ t.status.done = true ∧ t.status.valid = (!t.status.err) ∧
      (t.status.err = false → t.err.word = 0#32) ∧ t.status.ovr = s.status.ovr ∧
      (t.status.keyValid = true ↔
        s.status.keyValid = true ∨ ((i = .keyB32 ∨ i = .keyRaw) ∧ t.status.valid = true)) ∧
      t.irq = s.ctrl.ie

/-- FRAME of the eight commands (R54, R147): what each leaves unchanged, to every byte of INBUF. -/
def Obligations.CommandsWriteOnlyTheirRegisters : Prop :=
  ∀ (i : Instr) (s t : State), exec i s = .next t →
    (t.ctrl = s.ctrl ∧ t.now = s.now ∧ t.counter = s.counter ∧ t.textLen = s.textLen ∧
      (∀ a, t.inbuf.read? a = s.inbuf.read? a) ∧ t.rst = s.rst ∧ t.timeValid = s.timeValid ∧ t.timeIn = s.timeIn ∧
      t.resp = s.resp ∧ t.events = s.events ∧ t.draws = s.draws) ∧
    (i ≠ .cfgDefault → t.cfg = s.cfg) ∧
    (i ≠ .cfgCommit → i ≠ .cfgDefault → t.act = s.act) ∧
    (i ≠ .keyB32 → i ≠ .keyRaw → t.key = s.key ∧ t.keyLen = s.keyLen ∧ t.status.keyValid = s.status.keyValid) ∧
    (i ≠ .hotp → i ≠ .totp → t.digest = s.digest ∧ t.offset = s.offset ∧ t.trunc = s.trunc ∧ t.code = s.code) ∧
    (i ≠ .time → i ≠ .totp → t.tsamp = s.tsamp ∧ t.stepReg = s.stepReg ∧ t.remain = s.remain)

/-- R54: no command's result depends on a result register, so nothing an earlier command left there matters. -/
def Obligations.ResultsAreComputedFresh : Prop :=
  ∀ (i : Instr) (s : State) (ts st rm : DWord) (d : Digest) (o : BitVec 4) (p : BitVec 31) (c : Word),
    ∃ t t', exec i s = .next t ∧
      exec i { s with tsamp := ts, stepReg := st, remain := rm, digest := d, offset := o, trunc := p, code := c } =
        .next t' ∧
      t'.status = t.status ∧ t'.err = t.err ∧ t'.cfg = t.cfg ∧ t'.act = t.act ∧ t'.key = t.key ∧ t'.keyLen = t.keyLen ∧
      (t.status.valid = true → (i = .time ∨ i = .totp) →
        t'.tsamp = t.tsamp ∧ t'.stepReg = t.stepReg ∧ t'.remain = t.remain) ∧
      (t.status.valid = true → (i = .hotp ∨ i = .totp) →
        t'.digest = t.digest ∧ t'.offset = t.offset ∧ t'.trunc = t.trunc ∧ t'.code = t.code)

/-- R105: an illegal word carries its fields [3:0] and [31:4]; it completes with IllegalCommand, detail 2 if a
reserved bit is set, else 1, ERR.OP its OP, and nothing else changes. -/
def Obligations.IllegalCommandIsReported : Prop :=
  (∀ (op : BitVec 4) (rsvd : BitVec 28) (s : State),
    exec (.illegal op rsvd) s = .next (s.endsInError 5#4 (if rsvd = 0#28 then 1#4 else 2#4) op)) ∧
  (∀ (w : Word) (op : BitVec 4) (rsvd : BitVec 28), decode w = .illegal op rsvd →
    op = w.extractLsb' 0 4 ∧ rsvd = w.extractLsb' 4 28) ∧
  ∀ s : State, exec (decode 0x00000015#32) s = .next (s.endsInError 5#4 2#4 5#4)

/-! ### Configuration (40_configuration.md) -/

/-- R122, R124: CFG_COMMIT, word 1, checks the step size, then the width, and on success makes the staged copy active.
-/
def Obligations.CfgCommitValidatesThenActivates : Prop :=
  decode 0x00000001#32 = .cfgCommit ∧
  ∀ s : State,
    (s.cfg.step = 0#64 → exec .cfgCommit s = .next (s.endsInError 3#4 1#4 1#4)) ∧
    (s.cfg.step ≠ 0#64 → s.cfg.width = 0#4 → exec .cfgCommit s = .next (s.endsInError 3#4 2#4 1#4)) ∧
    (s.cfg.step ≠ 0#64 → 9 < s.cfg.width.toNat → exec .cfgCommit s = .next (s.endsInError 3#4 3#4 1#4)) ∧
    (s.cfg.step ≠ 0#64 → 1 ≤ s.cfg.width.toNat → s.cfg.width.toNat ≤ 9 →
      exec .cfgCommit s = .next ({ s with act := s.cfg }).endsWell)

/-- R123: CFG_DEFAULT, word 2, always succeeds and puts `(0, 30, 6)` in both copies. -/
def Obligations.CfgDefaultRestoresBothCopies : Prop :=
  decode 0x00000002#32 = .cfgDefault ∧
  ∀ s : State,
    exec .cfgDefault s = .next
      ({ s with cfg := { start := 0#64, step := 30#64, width := 6#4 }
                act := { start := 0#64, step := 30#64, width := 6#4 } }).endsWell

/-! ### Secret provisioning (41_secret_codec.md) -/

/-- R148, R146: KEY_B32, word 3, decodes INBUF[0..TEXT_LEN) and stores the key zero-filled to 160 bytes, or reports
the decoder's DecodeError and changes nothing. -/
def Obligations.KeyB32StoresTheDecodedKey : Prop :=
  decode 0x00000003#32 = .keyB32 ∧
  ∀ s : State,
    (∀ k, base32Decode ((List.range s.textLen.toNat).map fun i => inbufByte s.inbuf i) = .ok k →
      exec .keyB32 s = .next
        ({ s with key := k ++ List.replicate (160 - k.length) 0#8
                  keyLen := BitVec.ofNat 8 k.length
                  status := { s.status with keyValid := true } }).endsWell) ∧
    (∀ e, base32Decode ((List.range s.textLen.toNat).map fun i => inbufByte s.inbuf i) = .error e →
      e.code = 1#4 ∧ exec .keyB32 s = .next (s.endsInError 1#4 e.detail 3#4))

/-- R149, R146: KEY_RAW, word 4, stores INBUF[0..TEXT_LEN) unchanged, or rejects more than 160 bytes with
CryptoError(2). -/
def Obligations.KeyRawStoresTheBytes : Prop :=
  decode 0x00000004#32 = .keyRaw ∧
  ∀ s : State,
    (160 < s.textLen.toNat → exec .keyRaw s = .next (s.endsInError 4#4 2#4 4#4)) ∧
    (s.textLen.toNat ≤ 160 →
      exec .keyRaw s = .next
        ({ s with key := ((List.range s.textLen.toNat).map fun i => inbufByte s.inbuf i) ++
                    List.replicate (160 - s.textLen.toNat) 0#8
                  keyLen := s.textLen.extractLsb' 0 8
                  status := { s.status with keyValid := true } }).endsWell)

/-- R146: after a successful key command every byte of KEY is the new key's or 0, whatever key was there before. -/
def Obligations.NewKeyReplacesTheOldOne : Prop :=
  ∀ (i : Instr) (s t : State), (i = .keyB32 ∨ i = .keyRaw) → exec i s = .next t → t.status.valid = true →
    ∃ k : List Byte, k.length ≤ 160 ∧ t.keyLen.toNat = k.length ∧ t.key.length = 160 ∧ t.status.keyValid = true ∧
      (∀ n, n < 160 → t.key[n]? = some (if h : n < k.length then k[n] else 0#8)) ∧
      ∀ (old : List Byte) (oldLen : BitVec 8),
        exec i { s with key := old, keyLen := oldLen } = .next t

/-- R141 (alphabet from general knowledge, log 17): `A`..`Z` are 0..25, `2`..`7` are 26..31, no other byte has a
value. -/
def Obligations.AlphabetHasThirtyTwoSymbols : Prop :=
  (∀ n, n < 26 → symbolValue (BitVec.ofNat 8 (0x41 + n)) = some n) ∧
  (∀ n, n < 6 → symbolValue (BitVec.ofNat 8 (0x32 + n)) = some (26 + n)) ∧
  (∀ c : Byte, (symbolValue c).isSome = true ↔
    (0x41 ≤ c.toNat ∧ c.toNat ≤ 0x5A) ∨ (0x32 ≤ c.toNat ∧ c.toNat ≤ 0x37))

/-- R143, R142, R258: the order of the checks, to the last group. Length first, then characters, then per group the
padding, then the unused bits: `=` outside the last group, `=` before a data symbol, and a count of 2, 5, 7 or 8 at the end
are invalid padding whatever the unused bits are; with a legal count the low `lo` bits of the last symbol, which are the
group's unused bits, decide between 1.4 and success with the table's number of bytes. (The padding table and the bit order
are from general knowledge, log 17; that 1.4 exists and comes last is the spec's choice D18.) -/
def Obligations.Base32ChecksInOrder : Prop :=
  (∀ t : List Byte,
    (256 < t.length ∨ t.length % 8 ≠ 0 → base32Decode t = .error .malformedLength) ∧
    (t.length ≤ 256 → t.length % 8 = 0 → (∃ c ∈ t, c ≠ 0x3D#8 ∧ symbolValue c = none) →
      base32Decode t = .error .invalidCharacter) ∧
    (t.length ≤ 256 → t.length % 8 = 0 → (∀ c ∈ t, c = 0x3D#8 ∨ symbolValue c ≠ none) →
      (0x3D#8 ∈ t.take (t.length - 8) → base32Decode t = .error .invalidPadding) ∧
      (∀ (i j : Nat) (c : Byte), i < j → t[i]? = some 0x3D#8 → t[j]? = some c → c ≠ 0x3D#8 →
        base32Decode t = .error .invalidPadding))) ∧
  ∀ (front data : List Byte) (p : Nat), front.length + 8 ≤ 256 → front.length % 8 = 0 → data.length + p = 8 →
    (∀ c ∈ front ++ data, symbolValue c ≠ none) →
    (p ∈ [2, 5, 7, 8] → base32Decode (front ++ data ++ List.replicate p 0x3D#8) = .error .invalidPadding) ∧
    (∀ (nb lo : Nat) (init : List Byte) (c : Byte) (x : Nat),
      (p, nb, lo) ∈ [(0, 5, 0), (1, 4, 3), (3, 3, 1), (4, 2, 4), (6, 1, 2)] → data = init ++ [c] →
      symbolValue c = some x →
      (x % 2 ^ lo ≠ 0 → base32Decode (front ++ data ++ List.replicate p 0x3D#8) = .error .unusedBits) ∧
      (x % 2 ^ lo = 0 → ∃ b, base32Decode (front ++ data ++ List.replicate p 0x3D#8) = .ok b ∧
        b.length = 5 * (front.length / 8) + nb))

/-- R145: the RFC 4648 text of any 0 to 160 bytes has at most 256 symbols and, given to KEY_B32, provisions those bytes.
(R145 is an inference the spec marks as its own; the encoder is from general knowledge, log 17.) -/
def Obligations.Base32RoundTripThroughKeyB32 : Prop :=
  ∀ b : List Byte, b.length ≤ 160 →
    (base32Encode b).length ≤ 256 ∧ base32Decode (base32Encode b) = .ok b ∧
    ∀ s : State, s.textLen.toNat = (base32Encode b).length →
      ((List.range s.textLen.toNat).map fun i => inbufByte s.inbuf i) = base32Encode b →
      ∃ t, exec .keyB32 s = .next t ∧ t.status.valid = true ∧ t.keyLen.toNat = b.length ∧
        t.key.take t.keyLen.toNat = b

/-- The decoder is strict (D18): the only text it decodes to `b` is the RFC 4648 text of `b`, which has at most 160
bytes (R143). -/
def Obligations.Base32AcceptsOnlyCanonicalText : Prop :=
  ∀ t b : List Byte, base32Decode t = .ok b → t = base32Encode b ∧ b.length ≤ 160

/-! ### HMAC-SHA1 and HOTP (42_hotp_engine.md) -/

/-- R172 (from general knowledge, log 17): SHA-1 padding, with the least number of zero bytes. -/
def Obligations.Sha1PaddingFillsBlocks : Prop :=
  ∀ x : List Byte, ∃ k : Nat,
    sha1Pad x = x ++ [0x80#8] ++ List.replicate k 0#8 ++ beBytes 8 (8 * x.length) ∧
      (x.length + 1 + k) % 64 = 56 ∧ (∀ j, (x.length + 1 + j) % 64 = 56 → k ≤ j) ∧ (sha1Pad x).length % 64 = 0

/-- R175 (from general knowledge, log 17): the 80 words of the message schedule of a block. -/
def Obligations.Sha1ScheduleFollowsItsRecurrence : Prop :=
  ∀ y : List Byte, y.length = 64 →
    (schedule y).length = 80 ∧
    (∀ t, t < 16 → (schedule y)[t]? = some (fromBE32 ((y.drop (4 * t)).take 4))) ∧
    (∀ t, 16 ≤ t → t < 80 → ∃ a b c d, (schedule y)[t - 3]? = some a ∧ (schedule y)[t - 8]? = some b ∧
      (schedule y)[t - 14]? = some c ∧ (schedule y)[t - 16]? = some d ∧
      (schedule y)[t]? = some ((a ^^^ b ^^^ c ^^^ d).rotateLeft 1))

/-- R178, R179 (from general knowledge, log 17): HMAC, the zero-padding of short keys and the hashing of long ones. -/
def Obligations.HmacHandlesShortAndLongKeys : Prop :=
  ∀ k m : List Byte,
    (hmacSha1 k m).length = 20 ∧
    (k.length ≤ 64 →
      hmacSha1 k m =
        sha1 (((k ++ List.replicate (64 - k.length) 0#8).map (· ^^^ 0x5C#8)) ++
          sha1 (((k ++ List.replicate (64 - k.length) 0#8).map (· ^^^ 0x36#8)) ++ m))) ∧
    (∀ n, k.length + n ≤ 64 → hmacSha1 (k ++ List.replicate n 0#8) m = hmacSha1 k m) ∧
    (64 < k.length → hmacSha1 k m = hmacSha1 (sha1 k) m)

/-- R171: the counter is hashed as its eight bytes, the most significant first. -/
def Obligations.CounterIsSerialisedBigEndian : Prop :=
  ∀ c : DWord,
    be64 c = [c.extractLsb' 56 8, c.extractLsb' 48 8, c.extractLsb' 40 8, c.extractLsb' 32 8, c.extractLsb' 24 8,
      c.extractLsb' 16 8, c.extractLsb' 8 8, c.extractLsb' 0 8]

/-- R184 with R170, R181, R182, R183: HOTP, word 5, without a key is CryptoError(1); with one it writes the digest,
the offset, the 31-bit truncated value and the code, all written out on numbers, and nothing else. -/
def Obligations.HotpWritesTheCode : Prop :=
  decode 0x00000005#32 = .hotp ∧
  ∀ s : State,
    (s.status.keyValid = false → exec .hotp s = .next (s.endsInError 4#4 1#4 5#4)) ∧
    (s.status.keyValid = true → ∀ (d : List Byte) (off p : Nat),
      d = hmacSha1 (s.key.take s.keyLen.toNat) (be64 s.counter) →
      off = (d.getD 19 0#8).toNat % 16 →
      p = (d.getD off 0#8).toNat % 128 * 2 ^ 24 + (d.getD (off + 1) 0#8).toNat * 2 ^ 16 +
        (d.getD (off + 2) 0#8).toNat * 2 ^ 8 + (d.getD (off + 3) 0#8).toNat →
      d.length = 20 ∧ off + 3 < 20 ∧
      exec .hotp s = .next
        ({ s with
           digest := { h0 := fromBE32 (d.take 4), h1 := fromBE32 ((d.drop 4).take 4)
                       h2 := fromBE32 ((d.drop 8).take 4), h3 := fromBE32 ((d.drop 12).take 4)
                       h4 := fromBE32 ((d.drop 16).take 4) }
           offset := BitVec.ofNat 4 off
           trunc := BitVec.ofNat 31 p
           code := BitVec.ofNat 32 (p % 10 ^ s.act.width.toNat) }).endsWell)

/-- R180: after a successful HOTP the DIGEST registers hold the words H0..H4 of the outer SHA-1. -/
def Obligations.DigestRegistersHoldTheOuterHash : Prop :=
  ∀ s t : State, exec .hotp s = .next t → t.status.valid = true →
    t.digest.bytes = hmacSha1 (s.key.take s.keyLen.toNat) (be64 s.counter) ∧
    t.digest = sha1Words (xorPad 0x5C#8 (hmacKeyBlock (s.key.take s.keyLen.toNat)) ++
      sha1 (xorPad 0x36#8 (hmacKeyBlock (s.key.take s.keyLen.toNat)) ++ be64 s.counter))

/-- R185: after every successful HOTP or TOTP the code is below 10^ACT_WIDTH and belongs to TRUNC, and OFFSET to the
digest. -/
def Obligations.CodeIsInRange : Prop :=
  ∀ (i : Instr) (s t : State), (i = .hotp ∨ i = .totp) → s.act.Valid → exec i s = .next t → t.status.valid = true →
    t.code.toNat < 10 ^ t.act.width.toNat ∧ t.trunc.toNat < 2 ^ 31 ∧ t.offset = t.digest.h4.extractLsb' 0 4 ∧
      t.code.toNat = t.trunc.toNat % 10 ^ t.act.width.toNat

/-- R186, R187: HOTP is a function of the key, the counter and the width; the width changes only CODE. -/
def Obligations.HotpIsDeterministicAndWidthIndependent : Prop :=
  ∀ s s' t t' : State, exec .hotp s = .next t → exec .hotp s' = .next t' →
    t.status.valid = true → t'.status.valid = true →
    s.key.take s.keyLen.toNat = s'.key.take s'.keyLen.toNat → s.counter = s'.counter →
    t.digest = t'.digest ∧ t.offset = t'.offset ∧ t.trunc = t'.trunc ∧ (s.act.width = s'.act.width → t.code = t'.code)

/-- Check values: SHA-1 of "abc" and of nothing (R177, from general knowledge, log 17), and the vectors of
95_test_vectors.md section 1.1: key ASCII `12345678901234567890`, 8 digits, counters 0, 1 and 37037036. A sanity
statement. -/
def Obligations.PublishedVectorsAreMet : Prop :=
  sha1Words [0x61#8, 0x62#8, 0x63#8] =
    { h0 := 0xa9993e36#32, h1 := 0x4706816a#32, h2 := 0xba3e2571#32, h3 := 0x7850c26c#32, h4 := 0x9cd0d89d#32 } ∧
  sha1Words [] =
    { h0 := 0xda39a3ee#32, h1 := 0x5e6b4b0d#32, h2 := 0x3255bfef#32, h3 := 0x95601890#32, h4 := 0xafd80709#32 } ∧
  ∀ k : List Byte,
    k = [0x31#8, 0x32#8, 0x33#8, 0x34#8, 0x35#8, 0x36#8, 0x37#8, 0x38#8, 0x39#8, 0x30#8, 0x31#8, 0x32#8, 0x33#8, 0x34#8,
      0x35#8, 0x36#8, 0x37#8, 0x38#8, 0x39#8, 0x30#8] →
    (hotpValue k 0#64 8).code = 84755224#32 ∧ (hotpValue k 1#64 8).code = 94287082#32 ∧
      (hotpValue k 37037036#64 8).code = 7081804#32

/-! ### Time (43_time_step.md) and TOTP (44_totp_facade.md) -/

/-- R211 to R215: TIME, word 6, on its sample: unavailable, before the start, or the sample, the step and the seconds
remaining, both exact below 2^64 (the active step size is never 0, R121). -/
def Obligations.TimeWritesStepAndRemaining : Prop :=
  decode 0x00000006#32 = .time ∧
  ∀ (s : State) (w : Word) (x : Sample), s.pend = some { word := w, sample := some x } →
    (x.valid = false → exec .time s = .next (s.endsInError 2#4 1#4 6#4)) ∧
    (x.valid = true → x.time.toNat < s.act.start.toNat → exec .time s = .next (s.endsInError 2#4 2#4 6#4)) ∧
    (x.valid = true → s.act.start.toNat ≤ x.time.toNat → 0 < s.act.step.toNat →
      ∃ n r : DWord, n.toNat = (x.time.toNat - s.act.start.toNat) / s.act.step.toNat ∧
        r.toNat = s.act.step.toNat - (x.time.toNat - s.act.start.toNat) % s.act.step.toNat ∧
        exec .time s = .next ({ s with tsamp := x.time, stepReg := n, remain := r }).endsWell)

/-- R216: the step counter never falls as the time rises, and rises by exactly 1 every step size. -/
def Obligations.StepCounterIsMonotone : Prop :=
  ∀ (c : OtpConfig) (t u : DWord), 0 < c.step.toNat → c.start.toNat ≤ t.toNat →
    (t.toNat ≤ u.toNat → (stepCount t c).toNat ≤ (stepCount u c).toNat) ∧
    (u.toNat = t.toNat + c.step.toNat → (stepCount u c).toNat = (stepCount t c).toNat + 1)

/-- R217: for every successful TIME or TOTP the sampled time, the seconds remaining and the step name one window. -/
def Obligations.TimeResultsNameOneWindow : Prop :=
  ∀ (i : Instr) (s t : State), (i = .time ∨ i = .totp) → 0 < s.act.step.toNat → exec i s = .next t →
    t.status.valid = true →
    t.act.start.toNat ≤ t.tsamp.toNat ∧
    t.tsamp.toNat - t.act.start.toNat + t.remain.toNat = (t.stepReg.toNat + 1) * t.act.step.toNat ∧
    1 ≤ t.remain.toNat ∧ t.remain.toNat ≤ t.act.step.toNat

/-- R231, R232: TOTP, word 7, reports the first of clock, start time and key that fails; else it writes the time
results and the HOTP value of the key at the step of its one sample. -/
def Obligations.TotpWritesCodeOfItsSample : Prop :=
  decode 0x00000007#32 = .totp ∧
  ∀ (s : State) (w : Word) (x : Sample), s.pend = some { word := w, sample := some x } →
    (x.valid = false → exec .totp s = .next (s.endsInError 2#4 1#4 7#4)) ∧
    (x.valid = true → x.time.toNat < s.act.start.toNat → exec .totp s = .next (s.endsInError 2#4 2#4 7#4)) ∧
    (x.valid = true → s.act.start.toNat ≤ x.time.toNat → s.status.keyValid = false →
      exec .totp s = .next (s.endsInError 4#4 1#4 7#4)) ∧
    (x.valid = true → s.act.start.toNat ≤ x.time.toNat → 0 < s.act.step.toNat → s.status.keyValid = true →
      ∃ (n r : DWord) (d : List Byte) (off : BitVec 4) (p : BitVec 31),
        n.toNat = (x.time.toNat - s.act.start.toNat) / s.act.step.toNat ∧
        r.toNat = s.act.step.toNat - (x.time.toNat - s.act.start.toNat) % s.act.step.toNat ∧
        d = hmacSha1 (s.key.take s.keyLen.toNat) (be64 n) ∧
        off.toNat = (d.getD 19 0#8).toNat % 16 ∧
        p.toNat = (d.getD off.toNat 0#8).toNat % 128 * 2 ^ 24 + (d.getD (off.toNat + 1) 0#8).toNat * 2 ^ 16 +
          (d.getD (off.toNat + 2) 0#8).toNat * 2 ^ 8 + (d.getD (off.toNat + 3) 0#8).toNat ∧
        exec .totp s = .next
          ({ s with
             tsamp := x.time, stepReg := n, remain := r
             digest := { h0 := fromBE32 (d.take 4), h1 := fromBE32 ((d.drop 4).take 4)
                         h2 := fromBE32 ((d.drop 8).take 4), h3 := fromBE32 ((d.drop 12).take 4)
                         h4 := fromBE32 ((d.drop 16).take 4) }
             offset := off
             trunc := p
             code := BitVec.ofNat 32 (p.toNat % 10 ^ s.act.width.toNat) }).endsWell)

/-- R231's corner case: TOTP leaves what TIME followed by HOTP with COUNTER = STEP leaves, had both the same sample. -/
def Obligations.TotpIsTimeThenHotp : Prop :=
  ∀ s t u v : State, exec .totp s = .next t → t.status.valid = true → exec .time s = .next u →
    exec .hotp { u with counter := u.stepReg } = .next v → t = { v with counter := s.counter }

/-! ### The register window (10_state.md, 20_memory.md, 70_reset_and_hazards.md) -/

/-- R21 to R44, R76: what reads of the window return while no command runs: constants, fields and halves, each at its
offset of R21; below 0x080, where no result register lies, also while one runs (R297). -/
def Obligations.ReadsReturnTheRegisters : Prop :=
  ∀ (s : State) (rest : List Event) (off : BitVec 9) (v : Nat), s.rst = false →
    (s.status.busy = false ∨ off.toNat < 0x080) → s.events = .port off .read :: rest →
    (off.toNat, v) ∈
      [(0x000, 0x4F545031), (0x004, 0x00A00100), (0x008, 2 * s.ctrl.tsrc.toNat + s.ctrl.ie.toNat),
       (0x00C, 32 * s.status.keyValid.toNat + 16 * s.status.ovr.toNat + 8 * s.status.err.toNat +
         4 * s.status.valid.toNat + 2 * s.status.done.toNat + s.status.busy.toNat), (0x010, 0),
       (0x014, s.err.op.toNat * 2 ^ 16 + s.err.detail.toNat * 2 ^ 8 + s.err.code.toNat)] ++
      [(0x020, s.cfg.start.toNat % 2 ^ 32), (0x024, s.cfg.start.toNat / 2 ^ 32), (0x028, s.cfg.step.toNat % 2 ^ 32),
       (0x02C, s.cfg.step.toNat / 2 ^ 32), (0x030, s.cfg.width.toNat), (0x040, s.act.start.toNat % 2 ^ 32),
       (0x044, s.act.start.toNat / 2 ^ 32), (0x048, s.act.step.toNat % 2 ^ 32), (0x04C, s.act.step.toNat / 2 ^ 32),
       (0x050, s.act.width.toNat)] ++
      [(0x060, s.now.toNat % 2 ^ 32), (0x064, s.now.toNat / 2 ^ 32), (0x068, s.counter.toNat % 2 ^ 32),
       (0x06C, s.counter.toNat / 2 ^ 32), (0x070, s.textLen.toNat), (0x074, s.keyLen.toNat)] ++
      [(0x080, s.tsamp.toNat % 2 ^ 32), (0x084, s.tsamp.toNat / 2 ^ 32), (0x088, s.stepReg.toNat % 2 ^ 32),
       (0x08C, s.stepReg.toNat / 2 ^ 32), (0x090, s.remain.toNat % 2 ^ 32), (0x094, s.remain.toNat / 2 ^ 32)] ++
      [(0x0A0, s.digest.h0.toNat), (0x0A4, s.digest.h1.toNat), (0x0A8, s.digest.h2.toNat), (0x0AC, s.digest.h3.toNat),
       (0x0B0, s.digest.h4.toNat), (0x0B4, s.offset.toNat), (0x0B8, s.trunc.toNat), (0x0BC, s.code.toNat)] →
    step s = .next { s with events := rest, resp := some { data := BitVec.ofNat 32 v, error := false } }

/-- R79: no read changes a register, INBUF, KEY, PEND or a port level; only the response and the model's own fields
move (log 4, log 5); and, but at a result register's offset while a command runs (R297), no free value is taken and a
second read returns the same. -/
def Obligations.ReadsHaveNoSideEffect : Prop :=
  ∀ (s : State) (off : BitVec 9) (rest : List Event), s.events = .port off .read :: rest →
    ∃ (r : Response) (n : Nat), step s = .next { s with events := rest, resp := some r, draws := n } ∧
      ((s.status.busy = false ∨ s.rst = true ∨
          ¬ (off.toNat % 4 = 0 ∧ ((0x080 ≤ off.toNat ∧ off.toNat ≤ 0x094) ∨ (0x0A0 ≤ off.toNat ∧ off.toNat ≤ 0x0BC)))) →
        n = s.draws ∧
        ∀ rest', rest = .port off .read :: rest' →
          step { s with events := rest, resp := some r } = .next { s with events := rest', resp := some r })

/-- R297: while a command runs, a read of a result register changes no register and returns a free value with exactly the
register's read-as-zero bits of R44 cleared: [31:4] of OFFSET, [31] of TRUNC, [31:30] of CODE, none of any other. The
value is a fresh draw, and which one it is no statement can say (U1; the form of the draw is log 4). -/
def Obligations.BusyReadsOfResultsAreUnspecified : Prop :=
  ∀ (s : State) (off : BitVec 9) (rest : List Event), s.rst = false → s.status.busy = true → off.toNat % 4 = 0 →
    ((0x080 ≤ off.toNat ∧ off.toNat ≤ 0x094) ∨ (0x0A0 ≤ off.toNat ∧ off.toNat ≤ 0x0BC)) →
    s.events = .port off .read :: rest →
    ∃ v : Word,
      step s = .next { s with
        events := rest, resp := some { data := v, error := false }, draws := s.draws + 1 } ∧
      (off.toNat < 0x0B4 → v = Config.freeWord s.draws) ∧
      (off = 0x0B4#9 → v = Config.freeWord s.draws &&& 0x0000000F#32 ∧ v.toNat < 2 ^ 4) ∧
      (off = 0x0B8#9 → v = Config.freeWord s.draws &&& 0x7FFFFFFF#32 ∧ v.toNat < 2 ^ 31) ∧
      (off = 0x0BC#9 → v = Config.freeWord s.draws &&& 0x3FFFFFFF#32 ∧ v.toNat < 2 ^ 30)

/-- R24, R34 to R36, R38 to R40, R76, R300: while no command runs, a write to a read-write register stores exactly the
bits it keeps, a half of a 64-bit register leaves the other half, and nothing else changes. The data 0 the write is
answered with is the model's choice (log 13). -/
def Obligations.RegisterWritesStoreTheKeptBits : Prop :=
  ∀ (s : State) (off : BitVec 9) (v : Word) (rest : List Event), s.rst = false → s.status.busy = false →
    s.events = .port off (.write v) :: rest →
    ∃ (start step' now counter : DWord) (width : BitVec 4) (len : BitVec 9) (ctrl : Ctrl),
      ((off.toNat ∈ [0x008, 0x020, 0x024, 0x028, 0x02C, 0x030, 0x060, 0x064, 0x068, 0x06C, 0x070]) →
        step s = .next { s with
          ctrl := ctrl
          cfg := { start := start, step := step', width := width }
          now := now
          counter := counter
          textLen := len
          events := rest
          resp := some { data := 0#32, error := false } }) ∧
      ctrl = (if off = 0x008#9 then { ie := v.getLsbD 0, tsrc := v.getLsbD 1 } else s.ctrl) ∧
      start.toNat = (if off = 0x020#9 then s.cfg.start.toNat / 2 ^ 32 * 2 ^ 32 + v.toNat
        else if off = 0x024#9 then v.toNat * 2 ^ 32 + s.cfg.start.toNat % 2 ^ 32 else s.cfg.start.toNat) ∧
      step'.toNat = (if off = 0x028#9 then s.cfg.step.toNat / 2 ^ 32 * 2 ^ 32 + v.toNat
        else if off = 0x02C#9 then v.toNat * 2 ^ 32 + s.cfg.step.toNat % 2 ^ 32 else s.cfg.step.toNat) ∧
      width.toNat = (if off = 0x030#9 then v.toNat % 2 ^ 4 else s.cfg.width.toNat) ∧
      now.toNat = (if off = 0x060#9 then s.now.toNat / 2 ^ 32 * 2 ^ 32 + v.toNat
        else if off = 0x064#9 then v.toNat * 2 ^ 32 + s.now.toNat % 2 ^ 32 else s.now.toNat) ∧
      counter.toNat = (if off = 0x068#9 then s.counter.toNat / 2 ^ 32 * 2 ^ 32 + v.toNat
        else if off = 0x06C#9 then v.toNat * 2 ^ 32 + s.counter.toNat % 2 ^ 32 else s.counter.toNat) ∧
      len.toNat = (if off = 0x070#9 then v.toNat % 2 ^ 9 else s.textLen.toNat)

/-- R75: a write to INBUFj stores the four bytes in their little-endian lanes, no other byte and no register changes. The
model's choices in it: the canonical form of INBUF (log 3), and the data 0 the write is answered with (log 13). -/
def Obligations.InbufWordIsLittleEndian : Prop :=
  ∀ (s : State) (j : Nat) (v : Word) (rest : List Event), s.rst = false → s.status.busy = false → s.inbuf.wf = true →
    j < 64 → s.events = .port (BitVec.ofNat 9 (0x100 + 4 * j)) (.write v) :: rest →
    ∃ m : Memory, step s = .next { s with inbuf := m, events := rest, resp := some { data := 0#32, error := false } } ∧
      m.wf = true ∧
      (∀ b, b < 4 → m.read? (0x100 + 4 * j + b) = some (v.extractLsb' (8 * b) 8)) ∧
      (∀ a, a < 0x100 + 4 * j ∨ 0x100 + 4 * j + 4 ≤ a → m.read? a = s.inbuf.read? a)

/-- R46: a read of INBUFj returns its four bytes, also while a command runs. -/
def Obligations.InbufReadsReturnTheBytes : Prop :=
  ∀ (s : State) (j : Nat) (b0 b1 b2 b3 : Byte) (rest : List Event), s.rst = false → j < 64 →
    s.inbuf.read? (0x100 + 4 * j) = some b0 → s.inbuf.read? (0x100 + 4 * j + 1) = some b1 →
    s.inbuf.read? (0x100 + 4 * j + 2) = some b2 → s.inbuf.read? (0x100 + 4 * j + 3) = some b3 →
    s.events = .port (BitVec.ofNat 9 (0x100 + 4 * j)) .read :: rest →
    step s = .next { s with
      events := rest
      resp := some { data := BitVec.ofNat 32 (b3.toNat * 2 ^ 24 + b2.toNat * 2 ^ 16 + b1.toNat * 2 ^ 8 + b0.toNat)
                     error := false } }

/-- R72: a misaligned access has no effect and gets a bus error response, with read data 0; every aligned offset of the
window is a legal address, whose access gets no error. R72 gives data 0 for a misaligned read; that a misaligned write is
answered with data 0 as well is the model's choice (log 13). -/
def Obligations.MisalignedAccessIsAnError : Prop :=
  ∀ (s : State) (off : BitVec 9) (x : Transfer) (rest : List Event), s.rst = false → s.events = .port off x :: rest →
    (off.toNat % 4 ≠ 0 →
      step s = .next { s with events := rest, resp := some { data := 0#32, error := true } }) ∧
    (off.toNat % 4 = 0 → ∃ t data, step s = .next t ∧ t.resp = some { data := data, error := false })

/-- R73: reserved offsets read 0, ignore writes, give no error and never set OVR. R73 gives the data 0 of a read; the
data 0 a write is answered with is the model's choice (log 13). -/
def Obligations.ReservedOffsetsReadZero : Prop :=
  ∀ (s : State) (off : BitVec 9) (x : Transfer) (rest : List Event), s.rst = false → off.toNat % 4 = 0 →
    ((0x018 ≤ off.toNat ∧ off.toNat ≤ 0x01C) ∨ (0x034 ≤ off.toNat ∧ off.toNat ≤ 0x03C) ∨
      (0x054 ≤ off.toNat ∧ off.toNat ≤ 0x05C) ∨ (0x078 ≤ off.toNat ∧ off.toNat ≤ 0x07C) ∨
      (0x098 ≤ off.toNat ∧ off.toNat ≤ 0x09C) ∨ (0x0C0 ≤ off.toNat ∧ off.toNat ≤ 0x0FC)) →
    s.events = .port off x :: rest →
    step s = .next { s with events := rest, resp := some { data := 0#32, error := false } }

/-- R74: writes to the read-only registers are ignored, without an error and without OVR, also while a command runs. The
data 0 the write is answered with is the model's choice (log 13). -/
def Obligations.ReadOnlyRegistersIgnoreWrites : Prop :=
  ∀ (s : State) (off : BitVec 9) (v : Word) (rest : List Event), s.rst = false → off.toNat % 4 = 0 →
    (off.toNat ≤ 0x004 ∨ off.toNat = 0x014 ∨ (0x040 ≤ off.toNat ∧ off.toNat ≤ 0x050) ∨ off.toNat = 0x074 ∨
      (0x080 ≤ off.toNat ∧ off.toNat ≤ 0x094) ∨ (0x0A0 ≤ off.toNat ∧ off.toNat ≤ 0x0BC)) →
    s.events = .port off (.write v) :: rest →
    step s = .next { s with events := rest, resp := some { data := 0#32, error := false } }

/-- R25: a write to STATUS clears DONE if bit 1 is 1 and OVR if bit 4 is 1, nothing else, and is never dropped. The data 0
the write is answered with is the model's choice (log 13). -/
def Obligations.StatusWriteClearsDoneAndOverrun : Prop :=
  ∀ (s : State) (v : Word) (rest : List Event), s.rst = false → s.events = .port 0x00C#9 (.write v) :: rest →
    step s = .next
      { s with
        status := { s.status with
          done := if v.toNat / 2 % 2 = 1 then false else s.status.done
          ovr := if v.toNat / 16 % 2 = 1 then false else s.status.ovr }
        events := rest
        resp := some { data := 0#32, error := false } }

/-- R296: while a command runs, a write to CMD, an input register or INBUF is dropped and sets OVR; a write to CTRL,
STATUS or any other aligned offset is not dropped and does not set OVR. The data 0 each write is answered with is the
model's choice (log 13). -/
def Obligations.InputWritesAreDroppedWhileBusy : Prop :=
  ∀ (s : State) (off : BitVec 9) (v : Word) (rest : List Event), s.rst = false → s.status.busy = true →
    s.events = .port off (.write v) :: rest →
    (off.toNat % 4 = 0 →
      (off.toNat = 0x010 ∨ (0x020 ≤ off.toNat ∧ off.toNat ≤ 0x030) ∨ (0x060 ≤ off.toNat ∧ off.toNat ≤ 0x070) ∨
        0x100 ≤ off.toNat) →
      step s = .next { s with
        status := { s.status with ovr := true }, events := rest, resp := some { data := 0#32, error := false } }) ∧
    (off = 0x008#9 →
      step s = .next { s with
        ctrl := { ie := v.getLsbD 0, tsrc := v.getLsbD 1 }, events := rest
        resp := some { data := 0#32, error := false } }) ∧
    (off = 0x00C#9 → ∃ st : Status, st.ovr = (s.status.ovr && !v.getLsbD 4) ∧
      st = { s.status with done := s.status.done && !v.getLsbD 1, ovr := st.ovr } ∧
      step s = .next { s with status := st, events := rest, resp := some { data := 0#32, error := false } }) ∧
    (off.toNat % 4 = 0 → off.toNat ∉ [0x008, 0x00C, 0x010] → ¬ (0x020 ≤ off.toNat ∧ off.toNat ≤ 0x030) →
      ¬ (0x060 ≤ off.toNat ∧ off.toNat ≤ 0x070) → off.toNat < 0x100 →
      step s = .next { s with events := rest, resp := some { data := 0#32, error := false } })

/-- R30, R259: OVR, once set, stays until a write of 1 to STATUS bit 4 or a reset; no command clears it. -/
def Obligations.OverrunIsSticky : Prop :=
  ∀ s t : State, step s = .next t → s.status.ovr = true → t.status.ovr = false →
    s.resetting = true ∨ ∃ v : Word, s.incoming = some (0x00C#9, .write v) ∧ v.getLsbD 4 = true

/-- R260, R261: `irq` is IE and DONE; in a step it falls exactly by a write of 1 to STATUS bit 1, a write of IE = 0, an
acceptance or a reset, and rises exactly by a completion with IE = 1 or by a write of IE = 1 while DONE is 1. -/
def Obligations.InterruptFollowsDoneAndEnable : Prop :=
  ∀ s t : State, step s = .next t →
    t.irq = (t.ctrl.ie && t.status.done) ∧
    (s.irq = true → (t.irq = false ↔
      s.resetting = true ∨ (∃ v : Word, s.incoming = some (0x00C#9, .write v) ∧ v.getLsbD 1 = true) ∨
        (∃ v : Word, s.incoming = some (0x008#9, .write v) ∧ v.getLsbD 0 = false) ∨
        ∃ w : Word, s.incoming = some (0x010#9, .write w) ∧ s.status.busy = false)) ∧
    (s.irq = false → (t.irq = true ↔
      (s.completing.isSome = true ∧ s.ctrl.ie = true) ∨
        ∃ v : Word, s.incoming = some (0x008#9, .write v) ∧ v.getLsbD 0 = true ∧ s.status.done = true))

/-- R70: an access at a platform address reaches the block at `addr - OTP_BASE` if it lies in the window, a multiple of
0x200 wherever the platform put it; one outside changes nothing (log 19) but the response, which every step clears
(log 13). -/
def Obligations.WindowIsDecodedAtItsBase : Prop :=
  Config.otpBase % 0x200 = 0 ∧
  ∀ (s : State) (addr : Nat) (x : Transfer) (rest : List Event), s.events = .platform addr x :: rest →
    (∀ off : BitVec 9, addr = Config.otpBase + off.toNat → step s = step { s with events := .port off x :: rest }) ∧
    ((addr < Config.otpBase ∨ Config.otpBase + 0x200 ≤ addr) →
      step s = .next { s with events := rest, resp := none })

/-! ### Reset (70_reset_and_hazards.md) -/

/-- R51, R291: the reset state, register by register (INBUF is unspecified, so nothing is said of its bytes). -/
def Obligations.ResetLeavesTheListedValues : Prop :=
  Reg.id.value State.reset = 0x4F545031#32 ∧ Reg.param.value State.reset = 0x00A00100#32 ∧
  State.reset.ctrl.word = 0#32 ∧ State.reset.status.word = 0#32 ∧ State.reset.err.word = 0#32 ∧
  State.reset.cfg = { start := 0#64, step := 30#64, width := 6#4 } ∧
  State.reset.act = { start := 0#64, step := 30#64, width := 6#4 } ∧
  State.reset.now = 0#64 ∧ State.reset.counter = 0#64 ∧ State.reset.textLen = 0#9 ∧ State.reset.keyLen = 0#8 ∧
  State.reset.tsamp = 0#64 ∧ State.reset.stepReg = 0#64 ∧ State.reset.remain = 0#64 ∧
  State.reset.digest = { h0 := 0#32, h1 := 0#32, h2 := 0#32, h3 := 0#32, h4 := 0#32 } ∧
  State.reset.offset = 0#4 ∧ State.reset.trunc = 0#31 ∧ State.reset.code = 0#32 ∧
  State.reset.key = List.replicate 160 0#8 ∧ State.reset.pend = none ∧ State.reset.irq = false

/-- R290, R291, R292: asserting `rst` replaces the whole state by the reset values, abandoning a pending command;
while it is asserted accesses are ignored and answer 0, and nothing completes; released, the block is idle. The model's
choices in it: the port levels go on through a reset (log 12); a write is answered with data 0 and a step that is no
access clears the response (log 13). -/
def Obligations.ResetReplacesTheWholeState : Prop :=
  ∀ (s : State) (rest : List Event),
    (s.events = .rst true :: rest →
      ∃ t, step s = .next t ∧ t.heldInReset ∧ t.rst = true ∧ t.inbuf.wf = true ∧ t.pend = none ∧
        t.status.done = false ∧ t.irq = false ∧ t.timeValid = s.timeValid ∧ t.timeIn = s.timeIn ∧ t.events = rest) ∧
    (s.rst = true → ∀ (off : BitVec 9) (x : Transfer), s.events = .port off x :: rest →
      step s = .next { s with events := rest, resp := some { data := 0#32, error := false } }) ∧
    (s.rst = true → (s.events = .complete :: rest ∨ s.events = [] ∧ rest = []) →
      step s = .next { s with events := rest, resp := none }) ∧
    (s.events = .rst false :: rest →
      step s = .next { s with rst := false, events := rest, resp := none } ∧
        (s.heldInReset → s.status.busy = false ∧ s.pend = none))

/-! ### Whole-machine claims -/

/-- The invariant of the block holds at reset (R51). -/
def Obligations.ResetMeetsTheInvariant : Prop := State.reset.Inv

/-- Every step keeps the invariant: the canonical INBUF, the valid active configuration (R121), BUSY exactly while a
command is pending (R26), one report at a time (R28, R29), ERR one of the table's (R252), the zero-filled key (R47), no
code without a key, OFFSET and TRUNC those of the digest (R185), and the reset state while `rst` is asserted (R290). -/
def Obligations.EveryStepKeepsTheInvariant : Prop :=
  ∀ s t : State, s.Inv → step s = .next t → t.Inv

/-- R29: outside a BUSY interval, once a command has completed, exactly one of VALID and ERR stays 1 until the next
acceptance or a reset. -/
def Obligations.OneOutcomeStaysReported : Prop :=
  ∀ s t : State, s.Inv → step s = .next t → s.resetting = false →
    (s.status.busy = false → s.status.valid ≠ s.status.err →
      t.status.busy = true ∨ (t.status.valid = s.status.valid ∧ t.status.err = s.status.err ∧ t.err = s.err)) ∧
    (s.status.busy = true → t.status.busy = false → t.status.valid ≠ t.status.err ∧ t.status.done = true)

/-- R264, R47: the key cannot be read. A step that does not complete a HOTP or TOTP answers the same response and leaves
the same state whatever the key bytes are, but for the key bytes themselves. -/
def Obligations.KeyBytesAreNeverReadBack : Prop :=
  ∀ (s t : State) (k : List Byte), s.completing ≠ some .hotp → s.completing ≠ some .totp → step s = .next t →
    ∃ k', step { s with key := k } = .next { t with key := k' }
end

