-- ==== Sys2Proof/Laws/Bytes.lean ====
section
/-! SUPPORT. Laws of the byte-order helpers and of the halves of a 64-bit register (00_scope.md R8, 20_memory.md R76). -/

namespace Sys2Proof.Machine

@[simp] theorem beBytes_length (n x : Nat) : (beBytes n x).length = n := by
  induction n with
  | zero => rfl
  | succ n ih => simp [beBytes, ih]

/-- The bytes depend on the value modulo 256^n only. -/
theorem beBytes_mod (n k x : Nat) (h : n ≤ k) : beBytes n (x % 256 ^ k) = beBytes n x := by
  induction n with
  | zero => rfl
  | succ n ih =>
    simp only [beBytes, ih (by omega), List.cons.injEq, and_true]
    apply BitVec.eq_of_toNat_eq
    obtain ⟨d, rfl⟩ : ∃ d, k = n + 1 + d := ⟨k - (n + 1), by omega⟩
    simp only [BitVec.toNat_ofNat]
    rw [show 256 ^ (n + 1 + d) = 256 ^ n * (256 * 256 ^ d) by ring, Nat.mod_mul_right_div_self]
    rw [Nat.mod_mul_right_mod]

/-- The big-endian value of a sequence with a byte in front. -/
theorem fromBE_acc (bs : List Byte) (acc : Nat) :
    bs.foldl (fun acc b => acc * 256 + b.toNat) acc = acc * 256 ^ bs.length + fromBE bs := by
  induction bs generalizing acc with
  | nil => simp [fromBE]
  | cons b bs ih =>
    simp only [fromBE, List.foldl_cons, List.length_cons]
    rw [ih, ih (0 * 256 + b.toNat)]
    ring

theorem fromBE_cons (b : Byte) (bs : List Byte) : fromBE (b :: bs) = b.toNat * 256 ^ bs.length + fromBE bs := by
  rw [fromBE, List.foldl_cons, fromBE_acc]
  simp

theorem fromBE_append (as bs : List Byte) : fromBE (as ++ bs) = fromBE as * 256 ^ bs.length + fromBE bs := by
  rw [fromBE, List.foldl_append, fromBE_acc]
  rfl

theorem fromBE_lt (bs : List Byte) : fromBE bs < 256 ^ bs.length := by
  induction bs with
  | nil => simp [fromBE]
  | cons b bs ih =>
    rw [fromBE_cons, List.length_cons, Nat.pow_succ]
    have := b.isLt
    have h2 : b.toNat + 1 ≤ 256 := by omega
    have h3 : (b.toNat + 1) * 256 ^ bs.length ≤ 256 * 256 ^ bs.length := Nat.mul_le_mul_right _ h2
    nlinarith

/-- Serialising and reading back. -/
theorem fromBE_beBytes (n x : Nat) : fromBE (beBytes n x) = x % 256 ^ n := by
  induction n with
  | zero => simp [beBytes, fromBE, Nat.mod_one]
  | succ n ih =>
    rw [beBytes, fromBE_cons, ih, beBytes_length, BitVec.toNat_ofNat]
    rw [show (2 : Nat) ^ 8 = 256 by norm_num, Nat.pow_succ, Nat.mod_mul]
    ring

/-- Reading and serialising back. -/
theorem beBytes_fromBE (bs : List Byte) : beBytes bs.length (fromBE bs) = bs := by
  induction bs with
  | nil => rfl
  | cons b bs ih =>
    have hlt := fromBE_lt bs
    have hpos : 0 < 256 ^ bs.length := by positivity
    simp only [List.length_cons, beBytes, fromBE_cons]
    congr 1
    · apply BitVec.eq_of_toNat_eq
      rw [BitVec.toNat_ofNat, Nat.add_comm, Nat.add_mul_div_right _ _ hpos, Nat.div_eq_of_lt hlt, Nat.zero_add]
      exact Nat.mod_eq_of_lt b.isLt
    · rw [← beBytes_mod bs.length bs.length _ (Nat.le_refl _), Nat.add_comm, Nat.add_mul_mod_self_right,
        Nat.mod_eq_of_lt hlt, ih]

@[simp] theorem be32_length (w : Word) : (be32 w).length = 4 := beBytes_length _ _

@[simp] theorem be64_length (v : DWord) : (be64 v).length = 8 := beBytes_length _ _

@[simp] theorem fromBE32_be32 (w : Word) : fromBE32 (be32 w) = w := by
  apply BitVec.eq_of_toNat_eq
  rw [fromBE32, be32, fromBE_beBytes, BitVec.toNat_ofNat]
  have := w.isLt
  omega

theorem be32_fromBE32 {bs : List Byte} (h : bs.length = 4) : be32 (fromBE32 bs) = bs := by
  have hlt := fromBE_lt bs
  rw [h] at hlt
  rw [be32, fromBE32, BitVec.toNat_ofNat, Nat.mod_eq_of_lt (by simpa using hlt)]
  rw [← h, beBytes_fromBE]

/-! ### Halves -/

theorem loHalf_toNat (v : DWord) : (loHalf v).toNat = v.toNat % 2 ^ 32 := by
  simp [loHalf, BitVec.extractLsb'_toNat]

theorem hiHalf_toNat (v : DWord) : (hiHalf v).toNat = v.toNat / 2 ^ 32 := by
  have := v.isLt
  rw [hiHalf, BitVec.extractLsb'_toNat, Nat.shiftRight_eq_div_pow]
  exact Nat.mod_eq_of_lt (by omega)

/-- The value of two words side by side (R76). -/
theorem append_toNat (h l : Word) : (h ++ l).toNat = h.toNat * 2 ^ 32 + l.toNat := by
  rw [BitVec.toNat_append, Nat.shiftLeft_eq, Nat.mul_comm, Nat.two_pow_add_eq_or_of_lt l.isLt]

theorem setLoHalf_toNat (v : DWord) (w : Word) : (setLoHalf v w).toNat = v.toNat / 2 ^ 32 * 2 ^ 32 + w.toNat := by
  rw [setLoHalf, ← hiHalf_toNat]
  exact append_toNat _ _

theorem setHiHalf_toNat (v : DWord) (w : Word) : (setHiHalf v w).toNat = w.toNat * 2 ^ 32 + v.toNat % 2 ^ 32 := by
  rw [setHiHalf, ← loHalf_toNat]
  exact append_toNat _ _

@[simp] theorem loHalf_setLoHalf (v : DWord) (w : Word) : loHalf (setLoHalf v w) = w := by
  apply BitVec.eq_of_toNat_eq
  have := w.isLt
  rw [loHalf_toNat, setLoHalf_toNat]
  omega

@[simp] theorem hiHalf_setLoHalf (v : DWord) (w : Word) : hiHalf (setLoHalf v w) = hiHalf v := by
  apply BitVec.eq_of_toNat_eq
  have := w.isLt
  rw [hiHalf_toNat, setLoHalf_toNat, hiHalf_toNat]
  omega

@[simp] theorem loHalf_setHiHalf (v : DWord) (w : Word) : loHalf (setHiHalf v w) = loHalf v := by
  apply BitVec.eq_of_toNat_eq
  rw [loHalf_toNat, setHiHalf_toNat, loHalf_toNat]
  omega

@[simp] theorem hiHalf_setHiHalf (v : DWord) (w : Word) : hiHalf (setHiHalf v w) = w := by
  apply BitVec.eq_of_toNat_eq
  rw [hiHalf_toNat, setHiHalf_toNat]
  omega

/-- A 64-bit register is its two halves (R76). -/
theorem halves_eq (v : DWord) : hiHalf v ++ loHalf v = v := by
  apply BitVec.eq_of_toNat_eq
  refine (append_toNat _ _).trans ?_
  rw [hiHalf_toNat, loHalf_toNat]
  omega

theorem loHalf_eq (v : DWord) : loHalf v = BitVec.ofNat 32 (v.toNat % 2 ^ 32) := by
  apply BitVec.eq_of_toNat_eq
  rw [BitVec.toNat_ofNat, loHalf_toNat]
  omega

theorem hiHalf_eq (v : DWord) : hiHalf v = BitVec.ofNat 32 (v.toNat / 2 ^ 32) := by
  apply BitVec.eq_of_toNat_eq
  have := v.isLt
  rw [BitVec.toNat_ofNat, hiHalf_toNat]
  omega

/-- A narrow field, read in a 32-bit register. -/
theorem zeroExtend_eq {n : Nat} (v : BitVec n) : v.zeroExtend 32 = BitVec.ofNat 32 v.toNat := by
  apply BitVec.eq_of_toNat_eq
  rw [BitVec.toNat_ofNat]
  simp

end Sys2Proof.Machine
end

