-- ==== Sys2Proof/Laws/Base32.lean ====
section
/-! SUPPORT. Laws of the base32 groups (41_secret_codec.md R141 to R143): one group, decoded and encoded, and texts of several groups. -/

namespace Sys2Proof.Machine

theorem symbolValue_lt {c : Byte} {v : Nat} (h : symbolValue c = some v) : v < 32 := by
  unfold symbolValue at h
  split at h
  · injection h; omega
  · split at h
    · injection h; omega
    · cases h

/-- Encoding a 5-bit value and reading it back (R141). -/
theorem symbolValue_symbolByte {v : Nat} (h : v < 32) : symbolValue (symbolByte v) = some v := by
  have : ∀ v : Fin 32, symbolValue (symbolByte v.val) = some v.val := by decide
  exact this ⟨v, h⟩

/-- Reading a symbol and encoding its value (R141). -/
theorem symbolByte_symbolValue {c : Byte} {v : Nat} (h : symbolValue c = some v) : symbolByte v = c := by
  have : ∀ c : Byte, (match symbolValue c with | some v => symbolByte v == c | none => true) = true := by decide +kernel
  have := this c
  rw [h] at this
  simpa using this

theorem symbolByte_ne_pad {v : Nat} (h : v < 32) : symbolByte v ≠ padByte := by
  have : ∀ v : Fin 32, symbolByte v.val ≠ padByte := by decide
  exact this ⟨v, h⟩

/-- The value of symbols read after others. -/
theorem symbolsValue_acc (cs : List Byte) (acc : Nat) :
    cs.foldl (fun acc c => acc * 32 + (symbolValue c).getD 0) acc = acc * 32 ^ cs.length + symbolsValue cs := by
  induction cs generalizing acc with
  | nil => simp [symbolsValue]
  | cons c cs ih =>
    simp only [symbolsValue, List.foldl_cons, List.length_cons]
    rw [ih, ih (0 * 32 + _)]
    ring

theorem symbolsValue_cons (c : Byte) (cs : List Byte) :
    symbolsValue (c :: cs) = (symbolValue c).getD 0 * 32 ^ cs.length + symbolsValue cs := by
  rw [symbolsValue, List.foldl_cons, symbolsValue_acc]
  simp

theorem symbolsValue_lt (cs : List Byte) : symbolsValue cs < 32 ^ cs.length := by
  induction cs with
  | nil => simp [symbolsValue]
  | cons c cs ih =>
    rw [symbolsValue_cons, List.length_cons, Nat.pow_succ]
    have h : (symbolValue c).getD 0 < 32 := by
      cases h : symbolValue c with
      | none => simp
      | some v => simpa using symbolValue_lt h
    have : ((symbolValue c).getD 0 + 1) * 32 ^ cs.length ≤ 32 * 32 ^ cs.length := Nat.mul_le_mul_right _ h
    nlinarith

@[simp] theorem symbolsOf_length (n v : Nat) : (symbolsOf n v).length = n := by
  induction n with
  | zero => rfl
  | succ n ih => simp [symbolsOf, ih]

/-- Encoding `n` symbols and reading them back. -/
theorem symbolsValue_symbolsOf (n v : Nat) : symbolsValue (symbolsOf n v) = v % 32 ^ n := by
  induction n with
  | zero => simp [symbolsOf, symbolsValue, Nat.mod_one]
  | succ n ih =>
    rw [symbolsOf, symbolsValue_cons, ih, symbolsOf_length, symbolValue_symbolByte (Nat.mod_lt _ (by omega)), Option.getD_some,
      Nat.pow_succ, Nat.mod_mul]
    ring

theorem mem_symbolsOf {n v : Nat} {c : Byte} (h : c ∈ symbolsOf n v) : ∃ x, x < 32 ∧ c = symbolByte x := by
  induction n with
  | zero => simp [symbolsOf] at h
  | succ n ih =>
    simp only [symbolsOf, List.mem_cons] at h
    rcases h with h | h
    · exact ⟨_, Nat.mod_lt _ (by omega), h⟩
    · exact ih h

theorem pad_not_mem_symbolsOf (n v : Nat) : padByte ∉ symbolsOf n v := by
  intro h
  obtain ⟨x, hx, e⟩ := mem_symbolsOf h
  exact symbolByte_ne_pad hx e.symm

/-- The symbols depend on the value modulo `32^n` only. -/
theorem symbolsOf_mod (n k v : Nat) (h : n ≤ k) : symbolsOf n (v % 32 ^ k) = symbolsOf n v := by
  induction n with
  | zero => rfl
  | succ n ih =>
    simp only [symbolsOf, ih (by omega), List.cons.injEq, and_true]
    obtain ⟨d, rfl⟩ : ∃ d, k = n + 1 + d := ⟨k - (n + 1), by omega⟩
    rw [show 32 ^ (n + 1 + d) = 32 ^ n * (32 * 32 ^ d) by ring, Nat.mod_mul_right_div_self, Nat.mod_mul_right_mod]

/-- Reading data symbols and encoding their value. -/
theorem symbolsOf_symbolsValue {cs : List Byte} (h : ∀ c ∈ cs, symbolValue c ≠ none) :
    symbolsOf cs.length (symbolsValue cs) = cs := by
  induction cs with
  | nil => rfl
  | cons c cs ih =>
    have hlt := symbolsValue_lt cs
    have hpos : 0 < 32 ^ cs.length := by positivity
    obtain ⟨x, hx⟩ := Option.ne_none_iff_exists'.1 (h c (by simp))
    simp only [List.length_cons, symbolsOf, symbolsValue_cons, hx, Option.getD_some]
    congr 1
    · rw [Nat.add_comm, Nat.add_mul_div_right _ _ hpos, Nat.div_eq_of_lt hlt, Nat.zero_add, Nat.mod_eq_of_lt (symbolValue_lt hx)]
      exact symbolByte_symbolValue hx
    · rw [← symbolsOf_mod cs.length cs.length _ (Nat.le_refl _), Nat.add_comm, Nat.add_mul_mod_self_right, Nat.mod_eq_of_lt hlt]
      exact ih fun c hc => h c (by simp [hc])

/-- The trailing padding of data symbols followed by padding. -/
theorem trailingPads_append {cs : List Byte} (m : Nat) (h : padByte ∉ cs) :
    trailingPads (cs ++ List.replicate m padByte) = m := by
  unfold trailingPads
  rw [List.reverse_append, List.reverse_replicate]
  have : ∀ l : List Byte, padByte ∉ l → (List.takeWhile (· == padByte) (List.replicate m padByte ++ l)).length = m := by
    intro l hl
    induction m with
    | zero =>
      cases l with
      | nil => rfl
      | cons c l =>
        have : ¬ c = padByte := fun e => hl (by simp [e])
        simp [this]
    | succ m ih => rw [List.replicate_succ, List.cons_append, List.takeWhile_cons_of_pos (by simp), List.length_cons, ih]
  exact this _ (by simpa using h)

/-- A group is its data symbols followed by its trailing padding. -/
theorem eq_take_append_pads (g : List Byte) :
    g = g.take (g.length - trailingPads g) ++ List.replicate (trailingPads g) padByte := by
  have h := List.takeWhile_append_dropWhile (p := (· == padByte)) (l := g.reverse)
  have hr : g.reverse.takeWhile (· == padByte) = List.replicate (trailingPads g) padByte := by
    rw [List.eq_replicate_iff]
    refine ⟨rfl, fun c hc => ?_⟩
    have := List.mem_takeWhile_imp hc
    simpa using this
  have hg : g = (g.reverse.dropWhile (· == padByte)).reverse ++ List.replicate (trailingPads g) padByte := by
    have := congrArg List.reverse h
    rw [List.reverse_append, List.reverse_reverse, hr, List.reverse_replicate] at this
    exact this.symm
  have hl : (g.reverse.dropWhile (· == padByte)).reverse.length = g.length - trailingPads g := by
    have := congrArg List.length hg
    rw [List.length_append, List.length_replicate] at this
    omega
  have ht : g.take (g.length - trailingPads g) = (g.reverse.dropWhile (· == padByte)).reverse := by
    rw [← hl]
    conv_lhs => rw [hg]
    rw [List.take_append_of_le_length (by rw [← hg]), ← hg, List.take_length]
  rw [ht]
  exact hg

/-- A group that decodes is the encoding of its bytes: 1 to 5 of them, 5 if it is not the last (R142, R143). -/
theorem decodeGroup_ok {l : Bool} {g b : List Byte} (hg : g.length = 8) (hc : ∀ c ∈ g, c = padByte ∨ symbolValue c ≠ none)
    (h : decodeGroup l g = .ok b) : g = encodeGroup b ∧ 1 ≤ b.length ∧ b.length ≤ 5 ∧ (l = false → b.length = 5) := by
  have hp := eq_take_append_pads g
  rw [hg] at hp
  unfold decodeGroup at h
  simp only at h
  split at h
  · cases h
  next h1 =>
  split at h
  · cases h
  next h2 =>
  split at h
  · cases h
  next h3 =>
  split at h
  · cases h
  next h4 =>
  injection h with h
  generalize trailingPads g = p at *
  have hv : ∀ c ∈ g.take (8 - p), symbolValue c ≠ none := by
    intro c hcm
    rcases hc c (List.mem_of_mem_take hcm) with e | e
    · exact absurd (List.any_eq_true.2 ⟨c, hcm, by simp [e]⟩) h1
    · exact e
  have hlen : (g.take (8 - p)).length = 8 - p := by rw [List.length_take, hg]; omega
  have hlt := symbolsValue_lt (g.take (8 - p))
  have hsym := symbolsOf_symbolsValue hv
  rw [hlen] at hlt hsym
  have hp' : p = 0 ∨ p = 1 ∨ p = 3 ∨ p = 4 ∨ p = 6 := by
    simp [legalPads] at h3
    omega
  have hl : l = false → p = 0 := by
    intro hl; by_contra hne; exact h2 ⟨by omega, by simp [hl]⟩
  generalize symbolsValue (g.take (8 - p)) = v at *
  have hbl : b.length = 5 * (8 - p) / 8 := by rw [← h, beBytes_length]
  have hbv : fromBE b = v / 2 ^ (5 * (8 - p) - 8 * (5 * (8 - p) / 8)) := by
    rw [← h, fromBE_beBytes]
    apply Nat.mod_eq_of_lt
    rcases hp' with rfl | rfl | rfl | rfl | rfl <;> norm_num at hlt ⊢ <;> omega
  refine ⟨?_, ?_, ?_, ?_⟩
  · rw [hp]
    unfold encodeGroup
    rw [hbl, hbv]
    have e1 : (8 * (5 * (8 - p) / 8) + 4) / 5 = 8 - p := by omega
    have e2 : 8 - (8 - p) = p := by omega
    rw [e1, e2, Nat.div_mul_cancel (Nat.dvd_of_mod_eq_zero (by simpa using h4)), hsym]
  · omega
  · omega
  · intro hl'; have := hl hl'; omega

/-- An encoded group of 1 to 5 bytes decodes to them; only the last may have fewer than 5 (R142). -/
theorem decodeGroup_encodeGroup {l : Bool} {b : List Byte} (h1 : 1 ≤ b.length) (h5 : b.length ≤ 5) (hl : l = false → b.length = 5) :
    decodeGroup l (encodeGroup b) = .ok b := by
  have hd := fun v => pad_not_mem_symbolsOf ((8 * b.length + 4) / 5) v
  have hlt := fromBE_lt b
  have hbe := beBytes_fromBE b
  unfold decodeGroup encodeGroup
  simp only [trailingPads_append _ (hd _)]
  generalize hL : b.length = L at *
  have e1 : 8 - (8 - (8 * L + 4) / 5) = (8 * L + 4) / 5 := by omega
  have e2 : 5 * ((8 * L + 4) / 5) / 8 = L := by omega
  rw [e1, e2]
  rw [List.take_append_of_le_length (by simp), List.take_of_length_le (by simp), symbolsValue_symbolsOf]
  have e3 : (fromBE b * 2 ^ (5 * ((8 * L + 4) / 5) - 8 * L)) % 32 ^ ((8 * L + 4) / 5) = fromBE b * 2 ^ (5 * ((8 * L + 4) / 5) - 8 * L) := by
    apply Nat.mod_eq_of_lt
    have : L = 1 ∨ L = 2 ∨ L = 3 ∨ L = 4 ∨ L = 5 := by omega
    rcases this with rfl | rfl | rfl | rfl | rfl <;> norm_num at hlt ⊢ <;> omega
  rw [e3, if_neg, if_neg, if_neg, if_neg, Nat.mul_div_cancel _ (by positivity), hbe]
  · simp
  · have : L = 1 ∨ L = 2 ∨ L = 3 ∨ L = 4 ∨ L = 5 := by omega
    rcases this with rfl | rfl | rfl | rfl | rfl <;> decide
  · rintro ⟨h, h'⟩
    have := hl (by simpa using h')
    omega
  · rw [List.any_eq_true]
    rintro ⟨c, hc, e⟩
    exact hd _ ((beq_iff_eq.1 e) ▸ hc)

@[simp] theorem encodeGroup_length {b : List Byte} (h5 : b.length ≤ 5) : (encodeGroup b).length = 8 := by
  unfold encodeGroup
  rw [List.length_append, symbolsOf_length, List.length_replicate]
  omega

/-- An encoded group holds alphabet symbols and padding only (R141). -/
theorem mem_encodeGroup {b : List Byte} {c : Byte} (h : c ∈ encodeGroup b) : invalidSymbol c = false := by
  unfold encodeGroup at h
  rw [List.mem_append] at h
  rcases h with h | h
  · obtain ⟨x, hx, rfl⟩ := mem_symbolsOf h
    simp [invalidSymbol, symbolValue_symbolByte hx]
  · have := (List.mem_replicate.1 h).2
    subst this
    decide

/-! ### Padding -/

/-- A group without padding has no trailing padding. -/
theorem trailingPads_of_not_mem {g : List Byte} (h : padByte ∉ g) : trailingPads g = 0 := by
  unfold trailingPads
  rw [List.length_eq_zero_iff]
  cases hr : g.reverse with
  | nil => rfl
  | cons c cs =>
    have : c ∈ g := by rw [← List.mem_reverse, hr]; simp
    have : ¬ c = padByte := fun e => h (e ▸ this)
    simp [this]

/-- A group without padding is five bytes (R142). -/
theorem decodeGroup_noPad {l : Bool} {g : List Byte} (hg : g.length = 8) (h : padByte ∉ g) :
    decodeGroup l g = .ok (beBytes 5 (symbolsValue g)) := by
  unfold decodeGroup
  simp only [trailingPads_of_not_mem h]
  rw [if_neg, if_neg (by omega), if_neg (by decide), if_neg (by rw [Nat.mod_eq_zero_of_dvd]; simp; simp)]
  · simp [List.take_of_length_le (Nat.le_of_eq hg)]
  · rw [List.any_eq_true]
    rintro ⟨c, hc, e⟩
    exact h (by simpa using (beq_iff_eq.1 e) ▸ List.mem_of_mem_take hc)

/-- Padding in a group that is not the last is an error (R143). -/
theorem decodeGroup_pad {g : List Byte} (hg : g.length = 8) (h : padByte ∈ g) : decodeGroup false g = .error .invalidPadding := by
  unfold decodeGroup
  simp only
  by_cases hp : trailingPads g = 0
  · rw [if_pos]
    rw [hp, List.any_eq_true]
    exact ⟨padByte, by simpa [List.take_of_length_le (Nat.le_of_eq hg)] using h, by simp⟩
  · split
    · rfl
    · rw [if_pos ⟨by omega, by simp⟩]

/-- `=` before a data symbol of a group is an error, the last group's as well, whatever follows (R143). -/
theorem decodeGroup_padBeforeData {l : Bool} {g : List Byte} {i j : Nat} {c : Byte} (hg : g.length = 8) (hij : i < j)
    (hi : g[i]? = some padByte) (hj : g[j]? = some c) (hc : c ≠ padByte) : decodeGroup l g = .error .invalidPadding := by
  have hp := eq_take_append_pads g
  rw [hg] at hp
  unfold decodeGroup
  simp only
  rw [if_pos]
  rw [List.any_eq_true]
  refine ⟨padByte, ?_, by simp⟩
  generalize trailingPads g = p at *
  have hjd : j < 8 - p := by
    by_contra hge
    rw [hp, List.getElem?_append_right (by rw [List.length_take]; omega)] at hj
    exact hc (List.eq_of_mem_replicate (List.mem_of_getElem? hj))
  refine List.mem_of_getElem? (i := i) ?_
  rw [List.getElem?_take_of_lt (by omega), hi]

/-- The last group, data symbols and then `p` padding bytes: the count is checked before the unused bits (R143). -/
theorem decodeGroup_last {data : List Byte} {p : Nat} (hl : data.length + p = 8) (hd : padByte ∉ data) :
    decodeGroup true (data ++ List.replicate p padByte) =
      if legalPads p = false then .error .invalidPadding
      else if symbolsValue data % 2 ^ (5 * (8 - p) - 8 * (5 * (8 - p) / 8)) ≠ 0 then .error .unusedBits
      else .ok (beBytes (5 * (8 - p) / 8) (symbolsValue data / 2 ^ (5 * (8 - p) - 8 * (5 * (8 - p) / 8)))) := by
  unfold decodeGroup
  have ht : (data ++ List.replicate p padByte).take (8 - p) = data := by
    rw [List.take_append_of_le_length (by omega), List.take_of_length_le (by omega)]
  simp only [trailingPads_append p hd, ht]
  rw [if_neg, if_neg (by simp)]
  · simp
  · rw [List.any_eq_true]
    rintro ⟨c, hc, e⟩
    exact hd ((beq_iff_eq.1 e) ▸ hc)

/-- The low bits of a group's value are those of its last symbol (R143). -/
theorem symbolsValue_mod_last {init : List Byte} {c : Byte} {x lo : Nat} (hc : symbolValue c = some x) (hlo : lo ≤ 5) :
    symbolsValue (init ++ [c]) % 2 ^ lo = x % 2 ^ lo := by
  obtain ⟨d, hd⟩ : ∃ d, 5 = lo + d := ⟨5 - lo, by omega⟩
  have h32 : (32 : Nat) = 2 ^ lo * 2 ^ d := by rw [← Nat.pow_add, ← hd]
  rw [symbolsValue, List.foldl_append, List.foldl_cons, List.foldl_nil, hc, Option.getD_some, h32, Nat.add_comm,
    Nat.mul_comm, Nat.mul_assoc, Nat.add_mul_mod_self_left]

/-! ### Texts of several groups -/

/-- Padding outside the last group is an error, whatever follows (R143). -/
theorem decodeGroups_padBeforeLast {n : Nat} {t : List Byte} (ht : t.length = 8 * n) (h : padByte ∈ t.take (t.length - 8)) :
    decodeGroups n t = .error .invalidPadding := by
  induction n generalizing t with
  | zero => simp [show t = [] from List.length_eq_zero_iff.1 (by omega)] at h
  | succ n ih =>
    have hn : n ≠ 0 := by
      rintro rfl
      rw [show t.length - 8 = 0 by omega] at h
      simp at h
    have hb : (n == 0) = false := by simpa using hn
    have h8 : (t.take 8).length = 8 := by rw [List.length_take]; omega
    unfold decodeGroups
    by_cases hp : padByte ∈ t.take 8
    · rw [hb, decodeGroup_pad h8 hp]
    · have hr : decodeGroups n (t.drop 8) = .error .invalidPadding := by
        refine ih (by rw [List.length_drop]; omega) ?_
        rw [← List.take_append_drop 8 (t.take (t.length - 8)), List.mem_append, List.take_take, List.drop_take] at h
        rcases h with h | h
        · exact absurd (List.mem_of_mem_take (by rwa [Nat.min_comm, ← List.take_take] at h)) hp
        · rwa [List.length_drop]
      rw [decodeGroup_noPad h8 hp]
      simp only [hr]

/-- Groups without padding are five bytes each, and the group after them decides the rest (R142, R143). -/
theorem decodeGroups_append {n : Nat} {front g : List Byte} (hf : front.length = 8 * n) (hp : padByte ∉ front)
    (hg : g.length = 8) :
    ∃ out : List Byte, out.length = 5 * n ∧
      decodeGroups (n + 1) (front ++ g) = (decodeGroup true g).map fun b => out ++ b := by
  induction n generalizing front with
  | zero =>
    obtain rfl : front = [] := List.length_eq_zero_iff.1 (by omega)
    refine ⟨[], rfl, ?_⟩
    simp only [decodeGroups, List.nil_append, List.take_of_length_le (Nat.le_of_eq hg), beq_self_eq_true]
    cases decodeGroup true g <;> simp [Except.map]
  | succ n ih =>
    obtain ⟨out, ho, h⟩ := ih (front := front.drop 8) (by rw [List.length_drop]; omega)
      (fun hm => hp (List.mem_of_mem_drop hm))
    refine ⟨beBytes 5 (symbolsValue (front.take 8)) ++ out, by rw [List.length_append, beBytes_length]; omega, ?_⟩
    rw [decodeGroups, List.take_append_of_le_length (by omega), List.drop_append_of_le_length (by omega), h,
      decodeGroup_noPad (by rw [List.length_take]; omega) (fun hm => hp (List.mem_of_mem_take hm))]
    cases decodeGroup true g <;> simp [Except.map]

end Sys2Proof.Machine
end

