-- ==== Sys2Proof/Laws/Hash.lean ====
section
/-! SUPPORT. Laws of SHA-1, HMAC and truncation: sizes, the DIGEST registers, the range of a code. -/

namespace Sys2Proof.Machine

@[simp] theorem Digest.bytes_length (d : Digest) : d.bytes.length = 20 := by simp [Digest.bytes]

@[simp] theorem sha1_length (x : List Byte) : (sha1 x).length = 20 := Digest.bytes_length _

@[simp] theorem hmacSha1_length (k m : List Byte) : (hmacSha1 k m).length = 20 := sha1_length _

@[simp] theorem hmacKeyBlock_length (k : List Byte) : (hmacKeyBlock k).length = 64 := by
  unfold hmacKeyBlock hmacBlock
  split
  · simp
  · simp
    omega

/-- The DIGEST registers of a digest's bytes are its words (R180). -/
@[simp] theorem Digest.ofBytes_bytes (d : Digest) : Digest.ofBytes d.bytes = d := by
  have t4 : ∀ w : Word, ∀ l : List Byte, (be32 w ++ l).take 4 = be32 w := fun w l => by
    rw [List.take_append_of_le_length (by simp)]
    simp
  have d4 : ∀ w : Word, ∀ l : List Byte, (be32 w ++ l).drop 4 = l := fun w l => by
    rw [List.drop_append_of_le_length (by simp)]
    simp
  have d8 : ∀ l : List Byte, l.drop 8 = (l.drop 4).drop 4 := fun l => by simp
  have d12 : ∀ l : List Byte, l.drop 12 = ((l.drop 4).drop 4).drop 4 := fun l => by simp
  have d16 : ∀ l : List Byte, l.drop 16 = (((l.drop 4).drop 4).drop 4).drop 4 := fun l => by simp
  have e4 : ∀ w : Word, (be32 w).take 4 = be32 w := fun w => List.take_of_length_le (by simp)
  obtain ⟨h0, h1, h2, h3, h4⟩ := d
  simp only [Digest.ofBytes, Digest.bytes, d8, d12, d16, List.append_assoc, t4, d4, e4, fromBE32_be32]

/-- Twenty bytes are the bytes of their DIGEST words (10_state.md R43). -/
theorem Digest.bytes_ofBytes {d : List Byte} (h : d.length = 20) : (Digest.ofBytes d).bytes = d := by
  simp only [Digest.ofBytes, Digest.bytes]
  rw [be32_fromBE32 (by simp [h]), be32_fromBE32 (by simp [h]), be32_fromBE32 (by simp [h]),
    be32_fromBE32 (by simp [h]), be32_fromBE32 (by simp [h])]
  have e : ∀ n, d.drop n = (d.drop n).take 4 ++ d.drop (n + 4) := fun n => by
    rw [← List.drop_drop, List.take_append_drop]
  have e0 : d = d.take 4 ++ d.drop 4 := (List.take_append_drop 4 d).symm
  have e20 : d.drop 20 = [] := List.drop_of_length_le (by omega)
  conv_rhs => rw [e0, e 4, e 8, e 12, e 16, e20]
  simp

/-- The digest of an HMAC, as the DIGEST registers hold it, is the outer hash (R180). -/
theorem ofBytes_hmacSha1 (k m : List Byte) :
    Digest.ofBytes (hmacSha1 k m) =
      sha1Words (xorPad 0x5C#8 (hmacKeyBlock k) ++ sha1 (xorPad 0x36#8 (hmacKeyBlock k) ++ m)) :=
  Digest.ofBytes_bytes _

/-! ### Truncation -/

theorem truncOffset_toNat (d : List Byte) : (truncOffset d).toNat = (d.getD 19 0#8).toNat % 16 := by
  simp [truncOffset, BitVec.extractLsb'_toNat]

theorem truncOffset_le (d : List Byte) : (truncOffset d).toNat ≤ 15 := by
  have := (truncOffset d).isLt
  omega

theorem trunc31_toNat (d : List Byte) (off : Nat) :
    (trunc31 d off).toNat =
      (d.getD off 0#8).toNat % 128 * 2 ^ 24 + (d.getD (off + 1) 0#8).toNat * 2 ^ 16 +
        (d.getD (off + 2) 0#8).toNat * 2 ^ 8 + (d.getD (off + 3) 0#8).toNat := by
  have ap : ∀ {n : Nat} (x : BitVec n) (b : Byte), (x ++ b).toNat = x.toNat * 2 ^ 8 + b.toNat := fun x b => by
    rw [BitVec.toNat_append, Nat.shiftLeft_eq, Nat.mul_comm, Nat.two_pow_add_eq_or_of_lt b.isLt]
  have : (trunc31 d off).toNat = (((d.getD off 0#8).extractLsb' 0 7 ++ d.getD (off + 1) 0#8) ++
      d.getD (off + 2) 0#8 ++ d.getD (off + 3) 0#8).toNat := rfl
  rw [this, ap, ap, ap, BitVec.extractLsb'_toNat]
  simp only [Nat.shiftRight_zero]
  ring

theorem codeOf_toNat (p : BitVec 31) (w : Nat) : (codeOf p w).toNat = p.toNat % 10 ^ w := by
  have := p.isLt
  have h : p.toNat % 10 ^ w ≤ p.toNat := Nat.mod_le _ _
  simp only [codeOf, BitVec.toNat_ofNat]
  exact Nat.mod_eq_of_lt (by omega)

/-- A code of a legal width is below 10^9 (R44, R183). -/
theorem codeOf_lt {w : Nat} (hw : w ≤ 9) (p : BitVec 31) : (codeOf p w).toNat < 10 ^ 9 := by
  rw [codeOf_toNat]
  exact Nat.lt_of_lt_of_le (Nat.mod_lt _ (by positivity)) (Nat.pow_le_pow_right (by omega) hw)

/-- OFFSET of a digest is the low nibble of its last word (R185). -/
theorem truncOffset_bytes (d : Digest) : truncOffset d.bytes = d.h4.extractLsb' 0 4 := by
  have h : d.bytes.getD 19 0#8 = BitVec.ofNat 8 d.h4.toNat := by
    simp [Digest.bytes, be32, beBytes, List.getD]
  apply BitVec.eq_of_toNat_eq
  rw [truncOffset_toNat, h, BitVec.extractLsb'_toNat]
  simp only [BitVec.toNat_ofNat, Nat.shiftRight_zero]
  omega

end Sys2Proof.Machine
end

