-- ==== Sys2Proof/Laws/Memory.lean ====
section
/-! SUPPORT. Laws of INBUF: read after write, the canonical form, and the little-endian word lanes
(20_memory.md R75, notes/assumptions/3.md). -/

namespace Sys2Proof.Machine

/-- A write changes no address: the cells stay where they are. -/
@[simp] theorem Memory.write_keys (m : Memory) (a : Nat) (v : Byte) :
    (m.write a v).map Prod.fst = m.map Prod.fst := by
  induction m with
  | nil => rfl
  | cons c m ih =>
    obtain ⟨k, b⟩ := c
    by_cases h : k = a <;> simp [Memory.write, h, ih]

/-- A write keeps the canonical form. -/
theorem Memory.write_wf {m : Memory} (h : m.wf = true) (a : Nat) (v : Byte) : (m.write a v).wf = true := by
  simpa [Memory.wf] using h

/-- Reading another address after a write. -/
theorem Memory.read?_write_other (m : Memory) {a a' : Nat} (v : Byte) (h : a' ≠ a) :
    (m.write a v).read? a' = m.read? a' := by
  induction m with
  | nil => rfl
  | cons c m ih =>
    obtain ⟨k, b⟩ := c
    by_cases hk : k = a
    · simp [Memory.write, hk, Memory.read?, Ne.symm h]
    · simp [Memory.write, hk, Memory.read?, ih]

/-- Reading an address that has a cell after writing it. -/
theorem Memory.read?_write_same (m : Memory) {a : Nat} (v : Byte) (h : a ∈ m.map Prod.fst) :
    (m.write a v).read? a = some v := by
  induction m with
  | nil => simp at h
  | cons c m ih =>
    obtain ⟨k, b⟩ := c
    by_cases hk : k = a
    · simp [Memory.write, hk, Memory.read?]
    · have : a ∈ m.map Prod.fst := by
        simpa [Ne.symm hk] using h
      simp [Memory.write, hk, Memory.read?, ih this]

/-- An address has a cell exactly when it reads a byte. -/
theorem Memory.read?_isSome (m : Memory) (a : Nat) : (m.read? a).isSome = true ↔ a ∈ m.map Prod.fst := by
  induction m with
  | nil => simp [Memory.read?]
  | cons c m ih =>
    obtain ⟨k, b⟩ := c
    by_cases hk : k = a
    · simp [Memory.read?, hk]
    · simp only [Memory.read?, hk, if_false, ih, List.map_cons, List.mem_cons]
      constructor
      · exact Or.inr
      · rintro (h | h)
        · exact absurd h.symm hk
        · exact h

/-- INBUF's offsets. -/
theorem mem_inbufAddrs (a : Nat) : a ∈ inbufAddrs ↔ 0x100 ≤ a ∧ a < 0x200 := by
  simp [inbufAddrs, Config.inbufBase, Config.inbufCap, List.mem_range'_1]

/-- In the canonical form an offset has a cell exactly when it lies in INBUF. -/
theorem Memory.wf_mem {m : Memory} (h : m.wf = true) (a : Nat) : a ∈ m.map Prod.fst ↔ 0x100 ≤ a ∧ a < 0x200 := by
  have : m.map Prod.fst = inbufAddrs := by simpa [Memory.wf] using h
  rw [this, mem_inbufAddrs]

/-- Reset memory has the canonical form. -/
theorem Memory.atReset_wf (n : Nat) : (Memory.atReset n).wf = true := by
  simp [Memory.wf, Memory.atReset, Function.comp_def]

/-- A word write keeps the canonical form. -/
theorem writeInbufWord_wf {m : Memory} (h : m.wf = true) (j : Nat) (v : Word) :
    (writeInbufWord m j v).wf = true := by
  simpa [Memory.wf, writeInbufWord] using h

/-- The byte at an address outside a written word is unchanged. -/
theorem writeInbufWord_other (m : Memory) (j : Nat) (v : Word) (a : Nat)
    (h : a < 0x100 + 4 * j ∨ 0x100 + 4 * j + 4 ≤ a) : (writeInbufWord m j v).read? a = m.read? a := by
  unfold writeInbufWord inbufAddr Config.inbufBase
  rw [Memory.read?_write_other _ _ (by omega), Memory.read?_write_other _ _ (by omega),
    Memory.read?_write_other _ _ (by omega), Memory.read?_write_other _ _ (by omega)]

/-- Each of the four bytes of a written word, at its own lane. -/
theorem writeInbufWord_lane {m : Memory} (h : m.wf = true) {j : Nat} (hj : j < 64) (v : Word) {b : Nat} (hb : b < 4) :
    inbufByte (writeInbufWord m j v) (4 * j + b) = v.extractLsb' (8 * b) 8 := by
  have key : ∀ a, 0x100 ≤ a ∧ a < 0x200 → a ∈ m.map Prod.fst := fun a ha => (Memory.wf_mem h a).2 ha
  have hb' : b = 0 ∨ b = 1 ∨ b = 2 ∨ b = 3 := by omega
  unfold inbufByte Memory.byte writeInbufWord inbufAddr Config.inbufBase
  rcases hb' with rfl | rfl | rfl | rfl
  · rw [Nat.add_zero (4 * j)]
    rw [Memory.read?_write_other _ _ (by omega), Memory.read?_write_other _ _ (by omega),
      Memory.read?_write_other _ _ (by omega), Memory.read?_write_same _ _ (key _ (by omega))]
    rfl
  · rw [Memory.read?_write_other _ _ (by omega), Memory.read?_write_other _ _ (by omega),
      Memory.read?_write_same _ _ (by simpa using key _ (by omega))]; rfl
  · rw [Memory.read?_write_other _ _ (by omega),
      Memory.read?_write_same _ _ (by simpa using key _ (by omega))]; rfl
  · rw [Memory.read?_write_same _ _ (by simpa using key _ (by omega))]; rfl

/-- The byte of a word write, by its offset in the whole buffer: the written lane, or what it was. -/
theorem inbufByte_writeInbufWord {m : Memory} (h : m.wf = true) {j : Nat} (hj : j < 64) (v : Word) (i : Nat) :
    inbufByte (writeInbufWord m j v) i =
      if i / 4 = j then v.extractLsb' (8 * (i % 4)) 8 else inbufByte m i := by
  split
  · next e =>
    have := writeInbufWord_lane h hj v (b := i % 4) (Nat.mod_lt _ (by omega))
    rwa [show 4 * j + i % 4 = i by omega] at this
  · next e =>
    unfold inbufByte Memory.byte
    rw [writeInbufWord_other m j v _ (by unfold inbufAddr Config.inbufBase; omega)]

/-- A written word reads back. -/
theorem inbufWord_writeInbufWord {m : Memory} (h : m.wf = true) {j : Nat} (hj : j < 64) (v : Word) :
    inbufWord (writeInbufWord m j v) j = v := by
  have l := fun b hb => writeInbufWord_lane h hj v (b := b) hb
  have l0 := l 0 (by omega)
  rw [Nat.add_zero] at l0
  unfold inbufWord
  rw [l 3 (by omega), l 2 (by omega), l 1 (by omega), l0]
  ext i hi
  simp only [BitVec.getElem_append, BitVec.getElem_extractLsb']
  have hi' : i < 32 := by omega
  by_cases h8 : i < 8
  · simp [h8]
    rw [BitVec.getLsbD_eq_getElem hi']
  by_cases h16 : i < 16
  · simp [h8, show i - 8 < 8 by omega]
    rw [show 8 + (i - 8) = i by omega, BitVec.getLsbD_eq_getElem hi']
  by_cases h24 : i < 24
  · simp [h8, show ¬ i - 8 < 8 by omega, show i - 8 - 8 < 8 by omega]
    rw [show 16 + (i - 8 - 8) = i by omega, BitVec.getLsbD_eq_getElem hi']
  · simp [h8, show ¬ i - 8 < 8 by omega, show ¬ i - 8 - 8 < 8 by omega]
    rw [show 24 + (i - 8 - 8 - 8) = i by omega, BitVec.getLsbD_eq_getElem hi']

@[simp] theorem inbufBytes_length (m : Memory) (n : Nat) : (inbufBytes m n).length = n := by
  simp [inbufBytes]

end Sys2Proof.Machine
end

