-- ==== Sys2Proof/Laws/State.lean ====
section
/-! SUPPORT. What each named update of the state leaves in each field, one lemma per field per update, so that no later
proof unfolds a record update. -/

namespace Sys2Proof.Machine

/-! ### Acceptance of a command word: `State.accept` -/

@[simp] theorem State.accept_ctrl (s : State) (w : Word) : (s.accept w).ctrl = s.ctrl := rfl
@[simp] theorem State.accept_status (s : State) (w : Word) : (s.accept w).status = s.status.accepted := rfl
@[simp] theorem State.accept_err (s : State) (w : Word) : (s.accept w).err = ErrReg.clear := rfl
@[simp] theorem State.accept_cfg (s : State) (w : Word) : (s.accept w).cfg = s.cfg := rfl
@[simp] theorem State.accept_act (s : State) (w : Word) : (s.accept w).act = s.act := rfl
@[simp] theorem State.accept_now (s : State) (w : Word) : (s.accept w).now = s.now := rfl
@[simp] theorem State.accept_counter (s : State) (w : Word) : (s.accept w).counter = s.counter := rfl
@[simp] theorem State.accept_textLen (s : State) (w : Word) : (s.accept w).textLen = s.textLen := rfl
@[simp] theorem State.accept_keyLen (s : State) (w : Word) : (s.accept w).keyLen = s.keyLen := rfl
@[simp] theorem State.accept_key (s : State) (w : Word) : (s.accept w).key = s.key := rfl
@[simp] theorem State.accept_tsamp (s : State) (w : Word) : (s.accept w).tsamp = s.tsamp := rfl
@[simp] theorem State.accept_stepReg (s : State) (w : Word) : (s.accept w).stepReg = s.stepReg := rfl
@[simp] theorem State.accept_remain (s : State) (w : Word) : (s.accept w).remain = s.remain := rfl
@[simp] theorem State.accept_digest (s : State) (w : Word) : (s.accept w).digest = s.digest := rfl
@[simp] theorem State.accept_offset (s : State) (w : Word) : (s.accept w).offset = s.offset := rfl
@[simp] theorem State.accept_trunc (s : State) (w : Word) : (s.accept w).trunc = s.trunc := rfl
@[simp] theorem State.accept_code (s : State) (w : Word) : (s.accept w).code = s.code := rfl
@[simp] theorem State.accept_inbuf (s : State) (w : Word) : (s.accept w).inbuf = s.inbuf := rfl
@[simp] theorem State.accept_pend (s : State) (w : Word) :
    (s.accept w).pend = some { word := w, sample := s.acceptSample w } := rfl
@[simp] theorem State.accept_rst (s : State) (w : Word) : (s.accept w).rst = s.rst := rfl
@[simp] theorem State.accept_timeValid (s : State) (w : Word) : (s.accept w).timeValid = s.timeValid := rfl
@[simp] theorem State.accept_timeIn (s : State) (w : Word) : (s.accept w).timeIn = s.timeIn := rfl
@[simp] theorem State.accept_resp (s : State) (w : Word) : (s.accept w).resp = s.resp := rfl
@[simp] theorem State.accept_events (s : State) (w : Word) : (s.accept w).events = s.events := rfl
@[simp] theorem State.accept_draws (s : State) (w : Word) : (s.accept w).draws = s.draws := rfl

/-! ### Completion without an error: `State.succeed` -/

@[simp] theorem State.succeed_ctrl (s : State) : (s.succeed).ctrl = s.ctrl := rfl
@[simp] theorem State.succeed_status (s : State) : (s.succeed).status = s.status.completed true := rfl
@[simp] theorem State.succeed_err (s : State) : (s.succeed).err = ErrReg.clear := rfl
@[simp] theorem State.succeed_cfg (s : State) : (s.succeed).cfg = s.cfg := rfl
@[simp] theorem State.succeed_act (s : State) : (s.succeed).act = s.act := rfl
@[simp] theorem State.succeed_now (s : State) : (s.succeed).now = s.now := rfl
@[simp] theorem State.succeed_counter (s : State) : (s.succeed).counter = s.counter := rfl
@[simp] theorem State.succeed_textLen (s : State) : (s.succeed).textLen = s.textLen := rfl
@[simp] theorem State.succeed_keyLen (s : State) : (s.succeed).keyLen = s.keyLen := rfl
@[simp] theorem State.succeed_key (s : State) : (s.succeed).key = s.key := rfl
@[simp] theorem State.succeed_tsamp (s : State) : (s.succeed).tsamp = s.tsamp := rfl
@[simp] theorem State.succeed_stepReg (s : State) : (s.succeed).stepReg = s.stepReg := rfl
@[simp] theorem State.succeed_remain (s : State) : (s.succeed).remain = s.remain := rfl
@[simp] theorem State.succeed_digest (s : State) : (s.succeed).digest = s.digest := rfl
@[simp] theorem State.succeed_offset (s : State) : (s.succeed).offset = s.offset := rfl
@[simp] theorem State.succeed_trunc (s : State) : (s.succeed).trunc = s.trunc := rfl
@[simp] theorem State.succeed_code (s : State) : (s.succeed).code = s.code := rfl
@[simp] theorem State.succeed_inbuf (s : State) : (s.succeed).inbuf = s.inbuf := rfl
@[simp] theorem State.succeed_pend (s : State) : (s.succeed).pend = none := rfl
@[simp] theorem State.succeed_rst (s : State) : (s.succeed).rst = s.rst := rfl
@[simp] theorem State.succeed_timeValid (s : State) : (s.succeed).timeValid = s.timeValid := rfl
@[simp] theorem State.succeed_timeIn (s : State) : (s.succeed).timeIn = s.timeIn := rfl
@[simp] theorem State.succeed_resp (s : State) : (s.succeed).resp = s.resp := rfl
@[simp] theorem State.succeed_events (s : State) : (s.succeed).events = s.events := rfl
@[simp] theorem State.succeed_draws (s : State) : (s.succeed).draws = s.draws := rfl

/-! ### Error entry: `State.raise` -/

@[simp] theorem State.raise_ctrl (s : State) (op : BitVec 4) (e : CmdError) : (s.raise op e).ctrl = s.ctrl := rfl
@[simp] theorem State.raise_status (s : State) (op : BitVec 4) (e : CmdError) :
    (s.raise op e).status = s.status.completed false := rfl
@[simp] theorem State.raise_err (s : State) (op : BitVec 4) (e : CmdError) :
    (s.raise op e).err = ErrReg.report op e := rfl
@[simp] theorem State.raise_cfg (s : State) (op : BitVec 4) (e : CmdError) : (s.raise op e).cfg = s.cfg := rfl
@[simp] theorem State.raise_act (s : State) (op : BitVec 4) (e : CmdError) : (s.raise op e).act = s.act := rfl
@[simp] theorem State.raise_now (s : State) (op : BitVec 4) (e : CmdError) : (s.raise op e).now = s.now := rfl
@[simp] theorem State.raise_counter (s : State) (op : BitVec 4) (e : CmdError) :
    (s.raise op e).counter = s.counter := rfl
@[simp] theorem State.raise_textLen (s : State) (op : BitVec 4) (e : CmdError) :
    (s.raise op e).textLen = s.textLen := rfl
@[simp] theorem State.raise_keyLen (s : State) (op : BitVec 4) (e : CmdError) :
    (s.raise op e).keyLen = s.keyLen := rfl
@[simp] theorem State.raise_key (s : State) (op : BitVec 4) (e : CmdError) : (s.raise op e).key = s.key := rfl
@[simp] theorem State.raise_tsamp (s : State) (op : BitVec 4) (e : CmdError) : (s.raise op e).tsamp = s.tsamp := rfl
@[simp] theorem State.raise_stepReg (s : State) (op : BitVec 4) (e : CmdError) :
    (s.raise op e).stepReg = s.stepReg := rfl
@[simp] theorem State.raise_remain (s : State) (op : BitVec 4) (e : CmdError) :
    (s.raise op e).remain = s.remain := rfl
@[simp] theorem State.raise_digest (s : State) (op : BitVec 4) (e : CmdError) :
    (s.raise op e).digest = s.digest := rfl
@[simp] theorem State.raise_offset (s : State) (op : BitVec 4) (e : CmdError) :
    (s.raise op e).offset = s.offset := rfl
@[simp] theorem State.raise_trunc (s : State) (op : BitVec 4) (e : CmdError) : (s.raise op e).trunc = s.trunc := rfl
@[simp] theorem State.raise_code (s : State) (op : BitVec 4) (e : CmdError) : (s.raise op e).code = s.code := rfl
@[simp] theorem State.raise_inbuf (s : State) (op : BitVec 4) (e : CmdError) : (s.raise op e).inbuf = s.inbuf := rfl
@[simp] theorem State.raise_pend (s : State) (op : BitVec 4) (e : CmdError) : (s.raise op e).pend = none := rfl
@[simp] theorem State.raise_rst (s : State) (op : BitVec 4) (e : CmdError) : (s.raise op e).rst = s.rst := rfl
@[simp] theorem State.raise_timeValid (s : State) (op : BitVec 4) (e : CmdError) :
    (s.raise op e).timeValid = s.timeValid := rfl
@[simp] theorem State.raise_timeIn (s : State) (op : BitVec 4) (e : CmdError) :
    (s.raise op e).timeIn = s.timeIn := rfl
@[simp] theorem State.raise_resp (s : State) (op : BitVec 4) (e : CmdError) : (s.raise op e).resp = s.resp := rfl
@[simp] theorem State.raise_events (s : State) (op : BitVec 4) (e : CmdError) :
    (s.raise op e).events = s.events := rfl
@[simp] theorem State.raise_draws (s : State) (op : BitVec 4) (e : CmdError) : (s.raise op e).draws = s.draws := rfl

/-! ### Storing a key: `State.storeKey` -/

@[simp] theorem State.storeKey_ctrl (s : State) (k : List Byte) : (s.storeKey k).ctrl = s.ctrl := rfl
@[simp] theorem State.storeKey_status (s : State) (k : List Byte) :
    (s.storeKey k).status = { s.status with keyValid := true } := rfl
@[simp] theorem State.storeKey_err (s : State) (k : List Byte) : (s.storeKey k).err = s.err := rfl
@[simp] theorem State.storeKey_cfg (s : State) (k : List Byte) : (s.storeKey k).cfg = s.cfg := rfl
@[simp] theorem State.storeKey_act (s : State) (k : List Byte) : (s.storeKey k).act = s.act := rfl
@[simp] theorem State.storeKey_now (s : State) (k : List Byte) : (s.storeKey k).now = s.now := rfl
@[simp] theorem State.storeKey_counter (s : State) (k : List Byte) : (s.storeKey k).counter = s.counter := rfl
@[simp] theorem State.storeKey_textLen (s : State) (k : List Byte) : (s.storeKey k).textLen = s.textLen := rfl
@[simp] theorem State.storeKey_keyLen (s : State) (k : List Byte) :
    (s.storeKey k).keyLen = BitVec.ofNat 8 k.length := rfl
@[simp] theorem State.storeKey_key (s : State) (k : List Byte) :
    (s.storeKey k).key = k ++ List.replicate (Config.keyCap - k.length) 0#8 := rfl
@[simp] theorem State.storeKey_tsamp (s : State) (k : List Byte) : (s.storeKey k).tsamp = s.tsamp := rfl
@[simp] theorem State.storeKey_stepReg (s : State) (k : List Byte) : (s.storeKey k).stepReg = s.stepReg := rfl
@[simp] theorem State.storeKey_remain (s : State) (k : List Byte) : (s.storeKey k).remain = s.remain := rfl
@[simp] theorem State.storeKey_digest (s : State) (k : List Byte) : (s.storeKey k).digest = s.digest := rfl
@[simp] theorem State.storeKey_offset (s : State) (k : List Byte) : (s.storeKey k).offset = s.offset := rfl
@[simp] theorem State.storeKey_trunc (s : State) (k : List Byte) : (s.storeKey k).trunc = s.trunc := rfl
@[simp] theorem State.storeKey_code (s : State) (k : List Byte) : (s.storeKey k).code = s.code := rfl
@[simp] theorem State.storeKey_inbuf (s : State) (k : List Byte) : (s.storeKey k).inbuf = s.inbuf := rfl
@[simp] theorem State.storeKey_pend (s : State) (k : List Byte) : (s.storeKey k).pend = s.pend := rfl
@[simp] theorem State.storeKey_rst (s : State) (k : List Byte) : (s.storeKey k).rst = s.rst := rfl
@[simp] theorem State.storeKey_timeValid (s : State) (k : List Byte) : (s.storeKey k).timeValid = s.timeValid := rfl
@[simp] theorem State.storeKey_timeIn (s : State) (k : List Byte) : (s.storeKey k).timeIn = s.timeIn := rfl
@[simp] theorem State.storeKey_resp (s : State) (k : List Byte) : (s.storeKey k).resp = s.resp := rfl
@[simp] theorem State.storeKey_events (s : State) (k : List Byte) : (s.storeKey k).events = s.events := rfl
@[simp] theorem State.storeKey_draws (s : State) (k : List Byte) : (s.storeKey k).draws = s.draws := rfl

/-! ### Storing a time result: `State.storeTime` -/

@[simp] theorem State.storeTime_ctrl (s : State) (t : DWord) : (s.storeTime t).ctrl = s.ctrl := rfl
@[simp] theorem State.storeTime_status (s : State) (t : DWord) : (s.storeTime t).status = s.status := rfl
@[simp] theorem State.storeTime_err (s : State) (t : DWord) : (s.storeTime t).err = s.err := rfl
@[simp] theorem State.storeTime_cfg (s : State) (t : DWord) : (s.storeTime t).cfg = s.cfg := rfl
@[simp] theorem State.storeTime_act (s : State) (t : DWord) : (s.storeTime t).act = s.act := rfl
@[simp] theorem State.storeTime_now (s : State) (t : DWord) : (s.storeTime t).now = s.now := rfl
@[simp] theorem State.storeTime_counter (s : State) (t : DWord) : (s.storeTime t).counter = s.counter := rfl
@[simp] theorem State.storeTime_textLen (s : State) (t : DWord) : (s.storeTime t).textLen = s.textLen := rfl
@[simp] theorem State.storeTime_keyLen (s : State) (t : DWord) : (s.storeTime t).keyLen = s.keyLen := rfl
@[simp] theorem State.storeTime_key (s : State) (t : DWord) : (s.storeTime t).key = s.key := rfl
@[simp] theorem State.storeTime_tsamp (s : State) (t : DWord) : (s.storeTime t).tsamp = t := rfl
@[simp] theorem State.storeTime_stepReg (s : State) (t : DWord) : (s.storeTime t).stepReg = stepCount t s.act := rfl
@[simp] theorem State.storeTime_remain (s : State) (t : DWord) :
    (s.storeTime t).remain = secondsRemaining t s.act := rfl
@[simp] theorem State.storeTime_digest (s : State) (t : DWord) : (s.storeTime t).digest = s.digest := rfl
@[simp] theorem State.storeTime_offset (s : State) (t : DWord) : (s.storeTime t).offset = s.offset := rfl
@[simp] theorem State.storeTime_trunc (s : State) (t : DWord) : (s.storeTime t).trunc = s.trunc := rfl
@[simp] theorem State.storeTime_code (s : State) (t : DWord) : (s.storeTime t).code = s.code := rfl
@[simp] theorem State.storeTime_inbuf (s : State) (t : DWord) : (s.storeTime t).inbuf = s.inbuf := rfl
@[simp] theorem State.storeTime_pend (s : State) (t : DWord) : (s.storeTime t).pend = s.pend := rfl
@[simp] theorem State.storeTime_rst (s : State) (t : DWord) : (s.storeTime t).rst = s.rst := rfl
@[simp] theorem State.storeTime_timeValid (s : State) (t : DWord) : (s.storeTime t).timeValid = s.timeValid := rfl
@[simp] theorem State.storeTime_timeIn (s : State) (t : DWord) : (s.storeTime t).timeIn = s.timeIn := rfl
@[simp] theorem State.storeTime_resp (s : State) (t : DWord) : (s.storeTime t).resp = s.resp := rfl
@[simp] theorem State.storeTime_events (s : State) (t : DWord) : (s.storeTime t).events = s.events := rfl
@[simp] theorem State.storeTime_draws (s : State) (t : DWord) : (s.storeTime t).draws = s.draws := rfl

/-! ### Storing a code result: `State.storeHotp` -/

@[simp] theorem State.storeHotp_ctrl (s : State) (r : HotpResult) : (s.storeHotp r).ctrl = s.ctrl := rfl
@[simp] theorem State.storeHotp_status (s : State) (r : HotpResult) : (s.storeHotp r).status = s.status := rfl
@[simp] theorem State.storeHotp_err (s : State) (r : HotpResult) : (s.storeHotp r).err = s.err := rfl
@[simp] theorem State.storeHotp_cfg (s : State) (r : HotpResult) : (s.storeHotp r).cfg = s.cfg := rfl
@[simp] theorem State.storeHotp_act (s : State) (r : HotpResult) : (s.storeHotp r).act = s.act := rfl
@[simp] theorem State.storeHotp_now (s : State) (r : HotpResult) : (s.storeHotp r).now = s.now := rfl
@[simp] theorem State.storeHotp_counter (s : State) (r : HotpResult) : (s.storeHotp r).counter = s.counter := rfl
@[simp] theorem State.storeHotp_textLen (s : State) (r : HotpResult) : (s.storeHotp r).textLen = s.textLen := rfl
@[simp] theorem State.storeHotp_keyLen (s : State) (r : HotpResult) : (s.storeHotp r).keyLen = s.keyLen := rfl
@[simp] theorem State.storeHotp_key (s : State) (r : HotpResult) : (s.storeHotp r).key = s.key := rfl
@[simp] theorem State.storeHotp_tsamp (s : State) (r : HotpResult) : (s.storeHotp r).tsamp = s.tsamp := rfl
@[simp] theorem State.storeHotp_stepReg (s : State) (r : HotpResult) : (s.storeHotp r).stepReg = s.stepReg := rfl
@[simp] theorem State.storeHotp_remain (s : State) (r : HotpResult) : (s.storeHotp r).remain = s.remain := rfl
@[simp] theorem State.storeHotp_digest (s : State) (r : HotpResult) :
    (s.storeHotp r).digest = Digest.ofBytes r.digest := rfl
@[simp] theorem State.storeHotp_offset (s : State) (r : HotpResult) : (s.storeHotp r).offset = r.offset := rfl
@[simp] theorem State.storeHotp_trunc (s : State) (r : HotpResult) : (s.storeHotp r).trunc = r.trunc := rfl
@[simp] theorem State.storeHotp_code (s : State) (r : HotpResult) : (s.storeHotp r).code = r.code := rfl
@[simp] theorem State.storeHotp_inbuf (s : State) (r : HotpResult) : (s.storeHotp r).inbuf = s.inbuf := rfl
@[simp] theorem State.storeHotp_pend (s : State) (r : HotpResult) : (s.storeHotp r).pend = s.pend := rfl
@[simp] theorem State.storeHotp_rst (s : State) (r : HotpResult) : (s.storeHotp r).rst = s.rst := rfl
@[simp] theorem State.storeHotp_timeValid (s : State) (r : HotpResult) :
    (s.storeHotp r).timeValid = s.timeValid := rfl
@[simp] theorem State.storeHotp_timeIn (s : State) (r : HotpResult) : (s.storeHotp r).timeIn = s.timeIn := rfl
@[simp] theorem State.storeHotp_resp (s : State) (r : HotpResult) : (s.storeHotp r).resp = s.resp := rfl
@[simp] theorem State.storeHotp_events (s : State) (r : HotpResult) : (s.storeHotp r).events = s.events := rfl
@[simp] theorem State.storeHotp_draws (s : State) (r : HotpResult) : (s.storeHotp r).draws = s.draws := rfl

/-! ### Dropping a write: `State.dropWrite` -/

@[simp] theorem State.dropWrite_ctrl (s : State) : (s.dropWrite).ctrl = s.ctrl := rfl
@[simp] theorem State.dropWrite_status (s : State) : (s.dropWrite).status = { s.status with ovr := true } := rfl
@[simp] theorem State.dropWrite_err (s : State) : (s.dropWrite).err = s.err := rfl
@[simp] theorem State.dropWrite_cfg (s : State) : (s.dropWrite).cfg = s.cfg := rfl
@[simp] theorem State.dropWrite_act (s : State) : (s.dropWrite).act = s.act := rfl
@[simp] theorem State.dropWrite_now (s : State) : (s.dropWrite).now = s.now := rfl
@[simp] theorem State.dropWrite_counter (s : State) : (s.dropWrite).counter = s.counter := rfl
@[simp] theorem State.dropWrite_textLen (s : State) : (s.dropWrite).textLen = s.textLen := rfl
@[simp] theorem State.dropWrite_keyLen (s : State) : (s.dropWrite).keyLen = s.keyLen := rfl
@[simp] theorem State.dropWrite_key (s : State) : (s.dropWrite).key = s.key := rfl
@[simp] theorem State.dropWrite_tsamp (s : State) : (s.dropWrite).tsamp = s.tsamp := rfl
@[simp] theorem State.dropWrite_stepReg (s : State) : (s.dropWrite).stepReg = s.stepReg := rfl
@[simp] theorem State.dropWrite_remain (s : State) : (s.dropWrite).remain = s.remain := rfl
@[simp] theorem State.dropWrite_digest (s : State) : (s.dropWrite).digest = s.digest := rfl
@[simp] theorem State.dropWrite_offset (s : State) : (s.dropWrite).offset = s.offset := rfl
@[simp] theorem State.dropWrite_trunc (s : State) : (s.dropWrite).trunc = s.trunc := rfl
@[simp] theorem State.dropWrite_code (s : State) : (s.dropWrite).code = s.code := rfl
@[simp] theorem State.dropWrite_inbuf (s : State) : (s.dropWrite).inbuf = s.inbuf := rfl
@[simp] theorem State.dropWrite_pend (s : State) : (s.dropWrite).pend = s.pend := rfl
@[simp] theorem State.dropWrite_rst (s : State) : (s.dropWrite).rst = s.rst := rfl
@[simp] theorem State.dropWrite_timeValid (s : State) : (s.dropWrite).timeValid = s.timeValid := rfl
@[simp] theorem State.dropWrite_timeIn (s : State) : (s.dropWrite).timeIn = s.timeIn := rfl
@[simp] theorem State.dropWrite_resp (s : State) : (s.dropWrite).resp = s.resp := rfl
@[simp] theorem State.dropWrite_events (s : State) : (s.dropWrite).events = s.events := rfl
@[simp] theorem State.dropWrite_draws (s : State) : (s.dropWrite).draws = s.draws := rfl

/-! ### Releasing the reset port: `State.releaseReset` -/

@[simp] theorem State.releaseReset_ctrl (s : State) : (s.releaseReset).ctrl = s.ctrl := rfl
@[simp] theorem State.releaseReset_status (s : State) : (s.releaseReset).status = s.status := rfl
@[simp] theorem State.releaseReset_err (s : State) : (s.releaseReset).err = s.err := rfl
@[simp] theorem State.releaseReset_cfg (s : State) : (s.releaseReset).cfg = s.cfg := rfl
@[simp] theorem State.releaseReset_act (s : State) : (s.releaseReset).act = s.act := rfl
@[simp] theorem State.releaseReset_now (s : State) : (s.releaseReset).now = s.now := rfl
@[simp] theorem State.releaseReset_counter (s : State) : (s.releaseReset).counter = s.counter := rfl
@[simp] theorem State.releaseReset_textLen (s : State) : (s.releaseReset).textLen = s.textLen := rfl
@[simp] theorem State.releaseReset_keyLen (s : State) : (s.releaseReset).keyLen = s.keyLen := rfl
@[simp] theorem State.releaseReset_key (s : State) : (s.releaseReset).key = s.key := rfl
@[simp] theorem State.releaseReset_tsamp (s : State) : (s.releaseReset).tsamp = s.tsamp := rfl
@[simp] theorem State.releaseReset_stepReg (s : State) : (s.releaseReset).stepReg = s.stepReg := rfl
@[simp] theorem State.releaseReset_remain (s : State) : (s.releaseReset).remain = s.remain := rfl
@[simp] theorem State.releaseReset_digest (s : State) : (s.releaseReset).digest = s.digest := rfl
@[simp] theorem State.releaseReset_offset (s : State) : (s.releaseReset).offset = s.offset := rfl
@[simp] theorem State.releaseReset_trunc (s : State) : (s.releaseReset).trunc = s.trunc := rfl
@[simp] theorem State.releaseReset_code (s : State) : (s.releaseReset).code = s.code := rfl
@[simp] theorem State.releaseReset_inbuf (s : State) : (s.releaseReset).inbuf = s.inbuf := rfl
@[simp] theorem State.releaseReset_pend (s : State) : (s.releaseReset).pend = s.pend := rfl
@[simp] theorem State.releaseReset_rst (s : State) : (s.releaseReset).rst = false := rfl
@[simp] theorem State.releaseReset_timeValid (s : State) : (s.releaseReset).timeValid = s.timeValid := rfl
@[simp] theorem State.releaseReset_timeIn (s : State) : (s.releaseReset).timeIn = s.timeIn := rfl
@[simp] theorem State.releaseReset_resp (s : State) : (s.releaseReset).resp = s.resp := rfl
@[simp] theorem State.releaseReset_events (s : State) : (s.releaseReset).events = s.events := rfl
@[simp] theorem State.releaseReset_draws (s : State) : (s.releaseReset).draws = s.draws := rfl

/-! ### Driving the time port: `State.driveTime` -/

@[simp] theorem State.driveTime_ctrl (s : State) (v : Bool) (t : DWord) : (s.driveTime v t).ctrl = s.ctrl := rfl
@[simp] theorem State.driveTime_status (s : State) (v : Bool) (t : DWord) : (s.driveTime v t).status = s.status := rfl
@[simp] theorem State.driveTime_err (s : State) (v : Bool) (t : DWord) : (s.driveTime v t).err = s.err := rfl
@[simp] theorem State.driveTime_cfg (s : State) (v : Bool) (t : DWord) : (s.driveTime v t).cfg = s.cfg := rfl
@[simp] theorem State.driveTime_act (s : State) (v : Bool) (t : DWord) : (s.driveTime v t).act = s.act := rfl
@[simp] theorem State.driveTime_now (s : State) (v : Bool) (t : DWord) : (s.driveTime v t).now = s.now := rfl
@[simp] theorem State.driveTime_counter (s : State) (v : Bool) (t : DWord) :
    (s.driveTime v t).counter = s.counter := rfl
@[simp] theorem State.driveTime_textLen (s : State) (v : Bool) (t : DWord) :
    (s.driveTime v t).textLen = s.textLen := rfl
@[simp] theorem State.driveTime_keyLen (s : State) (v : Bool) (t : DWord) : (s.driveTime v t).keyLen = s.keyLen := rfl
@[simp] theorem State.driveTime_key (s : State) (v : Bool) (t : DWord) : (s.driveTime v t).key = s.key := rfl
@[simp] theorem State.driveTime_tsamp (s : State) (v : Bool) (t : DWord) : (s.driveTime v t).tsamp = s.tsamp := rfl
@[simp] theorem State.driveTime_stepReg (s : State) (v : Bool) (t : DWord) :
    (s.driveTime v t).stepReg = s.stepReg := rfl
@[simp] theorem State.driveTime_remain (s : State) (v : Bool) (t : DWord) : (s.driveTime v t).remain = s.remain := rfl
@[simp] theorem State.driveTime_digest (s : State) (v : Bool) (t : DWord) : (s.driveTime v t).digest = s.digest := rfl
@[simp] theorem State.driveTime_offset (s : State) (v : Bool) (t : DWord) : (s.driveTime v t).offset = s.offset := rfl
@[simp] theorem State.driveTime_trunc (s : State) (v : Bool) (t : DWord) : (s.driveTime v t).trunc = s.trunc := rfl
@[simp] theorem State.driveTime_code (s : State) (v : Bool) (t : DWord) : (s.driveTime v t).code = s.code := rfl
@[simp] theorem State.driveTime_inbuf (s : State) (v : Bool) (t : DWord) : (s.driveTime v t).inbuf = s.inbuf := rfl
@[simp] theorem State.driveTime_pend (s : State) (v : Bool) (t : DWord) : (s.driveTime v t).pend = s.pend := rfl
@[simp] theorem State.driveTime_rst (s : State) (v : Bool) (t : DWord) : (s.driveTime v t).rst = s.rst := rfl
@[simp] theorem State.driveTime_timeValid (s : State) (v : Bool) (t : DWord) : (s.driveTime v t).timeValid = v := rfl
@[simp] theorem State.driveTime_timeIn (s : State) (v : Bool) (t : DWord) : (s.driveTime v t).timeIn = t := rfl
@[simp] theorem State.driveTime_resp (s : State) (v : Bool) (t : DWord) : (s.driveTime v t).resp = s.resp := rfl
@[simp] theorem State.driveTime_events (s : State) (v : Bool) (t : DWord) : (s.driveTime v t).events = s.events := rfl
@[simp] theorem State.driveTime_draws (s : State) (v : Bool) (t : DWord) : (s.driveTime v t).draws = s.draws := rfl

/-! ### Answering a transfer: `State.respond` -/

@[simp] theorem State.respond_ctrl (s : State) (d : Word) (e : Bool) : (s.respond d e).ctrl = s.ctrl := rfl
@[simp] theorem State.respond_status (s : State) (d : Word) (e : Bool) : (s.respond d e).status = s.status := rfl
@[simp] theorem State.respond_err (s : State) (d : Word) (e : Bool) : (s.respond d e).err = s.err := rfl
@[simp] theorem State.respond_cfg (s : State) (d : Word) (e : Bool) : (s.respond d e).cfg = s.cfg := rfl
@[simp] theorem State.respond_act (s : State) (d : Word) (e : Bool) : (s.respond d e).act = s.act := rfl
@[simp] theorem State.respond_now (s : State) (d : Word) (e : Bool) : (s.respond d e).now = s.now := rfl
@[simp] theorem State.respond_counter (s : State) (d : Word) (e : Bool) : (s.respond d e).counter = s.counter := rfl
@[simp] theorem State.respond_textLen (s : State) (d : Word) (e : Bool) : (s.respond d e).textLen = s.textLen := rfl
@[simp] theorem State.respond_keyLen (s : State) (d : Word) (e : Bool) : (s.respond d e).keyLen = s.keyLen := rfl
@[simp] theorem State.respond_key (s : State) (d : Word) (e : Bool) : (s.respond d e).key = s.key := rfl
@[simp] theorem State.respond_tsamp (s : State) (d : Word) (e : Bool) : (s.respond d e).tsamp = s.tsamp := rfl
@[simp] theorem State.respond_stepReg (s : State) (d : Word) (e : Bool) : (s.respond d e).stepReg = s.stepReg := rfl
@[simp] theorem State.respond_remain (s : State) (d : Word) (e : Bool) : (s.respond d e).remain = s.remain := rfl
@[simp] theorem State.respond_digest (s : State) (d : Word) (e : Bool) : (s.respond d e).digest = s.digest := rfl
@[simp] theorem State.respond_offset (s : State) (d : Word) (e : Bool) : (s.respond d e).offset = s.offset := rfl
@[simp] theorem State.respond_trunc (s : State) (d : Word) (e : Bool) : (s.respond d e).trunc = s.trunc := rfl
@[simp] theorem State.respond_code (s : State) (d : Word) (e : Bool) : (s.respond d e).code = s.code := rfl
@[simp] theorem State.respond_inbuf (s : State) (d : Word) (e : Bool) : (s.respond d e).inbuf = s.inbuf := rfl
@[simp] theorem State.respond_pend (s : State) (d : Word) (e : Bool) : (s.respond d e).pend = s.pend := rfl
@[simp] theorem State.respond_rst (s : State) (d : Word) (e : Bool) : (s.respond d e).rst = s.rst := rfl
@[simp] theorem State.respond_timeValid (s : State) (d : Word) (e : Bool) :
    (s.respond d e).timeValid = s.timeValid := rfl
@[simp] theorem State.respond_timeIn (s : State) (d : Word) (e : Bool) : (s.respond d e).timeIn = s.timeIn := rfl
@[simp] theorem State.respond_resp (s : State) (d : Word) (e : Bool) :
    (s.respond d e).resp = some { data := d, error := e } := rfl
@[simp] theorem State.respond_events (s : State) (d : Word) (e : Bool) : (s.respond d e).events = s.events := rfl
@[simp] theorem State.respond_draws (s : State) (d : Word) (e : Bool) : (s.respond d e).draws = s.draws := rfl

/-! ### Beginning a step: `State.begin` -/

@[simp] theorem State.begin_ctrl (s : State) (rest : List Event) : (s.begin rest).ctrl = s.ctrl := rfl
@[simp] theorem State.begin_status (s : State) (rest : List Event) : (s.begin rest).status = s.status := rfl
@[simp] theorem State.begin_err (s : State) (rest : List Event) : (s.begin rest).err = s.err := rfl
@[simp] theorem State.begin_cfg (s : State) (rest : List Event) : (s.begin rest).cfg = s.cfg := rfl
@[simp] theorem State.begin_act (s : State) (rest : List Event) : (s.begin rest).act = s.act := rfl
@[simp] theorem State.begin_now (s : State) (rest : List Event) : (s.begin rest).now = s.now := rfl
@[simp] theorem State.begin_counter (s : State) (rest : List Event) : (s.begin rest).counter = s.counter := rfl
@[simp] theorem State.begin_textLen (s : State) (rest : List Event) : (s.begin rest).textLen = s.textLen := rfl
@[simp] theorem State.begin_keyLen (s : State) (rest : List Event) : (s.begin rest).keyLen = s.keyLen := rfl
@[simp] theorem State.begin_key (s : State) (rest : List Event) : (s.begin rest).key = s.key := rfl
@[simp] theorem State.begin_tsamp (s : State) (rest : List Event) : (s.begin rest).tsamp = s.tsamp := rfl
@[simp] theorem State.begin_stepReg (s : State) (rest : List Event) : (s.begin rest).stepReg = s.stepReg := rfl
@[simp] theorem State.begin_remain (s : State) (rest : List Event) : (s.begin rest).remain = s.remain := rfl
@[simp] theorem State.begin_digest (s : State) (rest : List Event) : (s.begin rest).digest = s.digest := rfl
@[simp] theorem State.begin_offset (s : State) (rest : List Event) : (s.begin rest).offset = s.offset := rfl
@[simp] theorem State.begin_trunc (s : State) (rest : List Event) : (s.begin rest).trunc = s.trunc := rfl
@[simp] theorem State.begin_code (s : State) (rest : List Event) : (s.begin rest).code = s.code := rfl
@[simp] theorem State.begin_inbuf (s : State) (rest : List Event) : (s.begin rest).inbuf = s.inbuf := rfl
@[simp] theorem State.begin_pend (s : State) (rest : List Event) : (s.begin rest).pend = s.pend := rfl
@[simp] theorem State.begin_rst (s : State) (rest : List Event) : (s.begin rest).rst = s.rst := rfl
@[simp] theorem State.begin_timeValid (s : State) (rest : List Event) : (s.begin rest).timeValid = s.timeValid := rfl
@[simp] theorem State.begin_timeIn (s : State) (rest : List Event) : (s.begin rest).timeIn = s.timeIn := rfl
@[simp] theorem State.begin_resp (s : State) (rest : List Event) : (s.begin rest).resp = none := rfl
@[simp] theorem State.begin_events (s : State) (rest : List Event) : (s.begin rest).events = rest := rfl
@[simp] theorem State.begin_draws (s : State) (rest : List Event) : (s.begin rest).draws = s.draws := rfl

/-! ### Placing a command word: `State.placeCommand` -/

@[simp] theorem State.placeCommand_ctrl (s : State) (w : Word) : (s.placeCommand w).ctrl = s.ctrl := rfl
@[simp] theorem State.placeCommand_status (s : State) (w : Word) :
    (s.placeCommand w).status = s.status.accepted := rfl
@[simp] theorem State.placeCommand_err (s : State) (w : Word) : (s.placeCommand w).err = ErrReg.clear := rfl
@[simp] theorem State.placeCommand_cfg (s : State) (w : Word) : (s.placeCommand w).cfg = s.cfg := rfl
@[simp] theorem State.placeCommand_act (s : State) (w : Word) : (s.placeCommand w).act = s.act := rfl
@[simp] theorem State.placeCommand_now (s : State) (w : Word) : (s.placeCommand w).now = s.now := rfl
@[simp] theorem State.placeCommand_counter (s : State) (w : Word) : (s.placeCommand w).counter = s.counter := rfl
@[simp] theorem State.placeCommand_textLen (s : State) (w : Word) : (s.placeCommand w).textLen = s.textLen := rfl
@[simp] theorem State.placeCommand_keyLen (s : State) (w : Word) : (s.placeCommand w).keyLen = s.keyLen := rfl
@[simp] theorem State.placeCommand_key (s : State) (w : Word) : (s.placeCommand w).key = s.key := rfl
@[simp] theorem State.placeCommand_tsamp (s : State) (w : Word) : (s.placeCommand w).tsamp = s.tsamp := rfl
@[simp] theorem State.placeCommand_stepReg (s : State) (w : Word) : (s.placeCommand w).stepReg = s.stepReg := rfl
@[simp] theorem State.placeCommand_remain (s : State) (w : Word) : (s.placeCommand w).remain = s.remain := rfl
@[simp] theorem State.placeCommand_digest (s : State) (w : Word) : (s.placeCommand w).digest = s.digest := rfl
@[simp] theorem State.placeCommand_offset (s : State) (w : Word) : (s.placeCommand w).offset = s.offset := rfl
@[simp] theorem State.placeCommand_trunc (s : State) (w : Word) : (s.placeCommand w).trunc = s.trunc := rfl
@[simp] theorem State.placeCommand_code (s : State) (w : Word) : (s.placeCommand w).code = s.code := rfl
@[simp] theorem State.placeCommand_inbuf (s : State) (w : Word) : (s.placeCommand w).inbuf = s.inbuf := rfl
@[simp] theorem State.placeCommand_pend (s : State) (w : Word) :
    (s.placeCommand w).pend = some { word := w, sample := s.acceptSample w } := rfl
@[simp] theorem State.placeCommand_rst (s : State) (w : Word) : (s.placeCommand w).rst = false := rfl
@[simp] theorem State.placeCommand_timeValid (s : State) (w : Word) :
    (s.placeCommand w).timeValid = s.timeValid := rfl
@[simp] theorem State.placeCommand_timeIn (s : State) (w : Word) : (s.placeCommand w).timeIn = s.timeIn := rfl
@[simp] theorem State.placeCommand_resp (s : State) (w : Word) : (s.placeCommand w).resp = s.resp := rfl
@[simp] theorem State.placeCommand_events (s : State) (w : Word) :
    (s.placeCommand w).events = .complete :: s.events := rfl
@[simp] theorem State.placeCommand_draws (s : State) (w : Word) : (s.placeCommand w).draws = s.draws := rfl

/-! ### The reset step: `State.assertReset` -/

@[simp] theorem State.assertReset_ctrl (s : State) : (s.assertReset).ctrl = State.reset.ctrl := rfl
@[simp] theorem State.assertReset_status (s : State) : (s.assertReset).status = State.reset.status := rfl
@[simp] theorem State.assertReset_err (s : State) : (s.assertReset).err = State.reset.err := rfl
@[simp] theorem State.assertReset_cfg (s : State) : (s.assertReset).cfg = State.reset.cfg := rfl
@[simp] theorem State.assertReset_act (s : State) : (s.assertReset).act = State.reset.act := rfl
@[simp] theorem State.assertReset_now (s : State) : (s.assertReset).now = State.reset.now := rfl
@[simp] theorem State.assertReset_counter (s : State) : (s.assertReset).counter = State.reset.counter := rfl
@[simp] theorem State.assertReset_textLen (s : State) : (s.assertReset).textLen = State.reset.textLen := rfl
@[simp] theorem State.assertReset_keyLen (s : State) : (s.assertReset).keyLen = State.reset.keyLen := rfl
@[simp] theorem State.assertReset_key (s : State) : (s.assertReset).key = State.reset.key := rfl
@[simp] theorem State.assertReset_tsamp (s : State) : (s.assertReset).tsamp = State.reset.tsamp := rfl
@[simp] theorem State.assertReset_stepReg (s : State) : (s.assertReset).stepReg = State.reset.stepReg := rfl
@[simp] theorem State.assertReset_remain (s : State) : (s.assertReset).remain = State.reset.remain := rfl
@[simp] theorem State.assertReset_digest (s : State) : (s.assertReset).digest = State.reset.digest := rfl
@[simp] theorem State.assertReset_offset (s : State) : (s.assertReset).offset = State.reset.offset := rfl
@[simp] theorem State.assertReset_trunc (s : State) : (s.assertReset).trunc = State.reset.trunc := rfl
@[simp] theorem State.assertReset_code (s : State) : (s.assertReset).code = State.reset.code := rfl
@[simp] theorem State.assertReset_inbuf (s : State) : (s.assertReset).inbuf = Memory.atReset s.draws := rfl
@[simp] theorem State.assertReset_pend (s : State) : (s.assertReset).pend = State.reset.pend := rfl
@[simp] theorem State.assertReset_rst (s : State) : (s.assertReset).rst = true := rfl
@[simp] theorem State.assertReset_timeValid (s : State) : (s.assertReset).timeValid = s.timeValid := rfl
@[simp] theorem State.assertReset_timeIn (s : State) : (s.assertReset).timeIn = s.timeIn := rfl
@[simp] theorem State.assertReset_resp (s : State) : (s.assertReset).resp = s.resp := rfl
@[simp] theorem State.assertReset_events (s : State) : (s.assertReset).events = s.events := rfl
@[simp] theorem State.assertReset_draws (s : State) : (s.assertReset).draws = s.draws + 1 := rfl

end Sys2Proof.Machine
end

