-- ==== Sys2Proof/Laws/Ops.lean ====
section
/-! SUPPORT. What a command can do, said once: `exec` is completion with the command's writes or its first error
(`exec_eq`), and what those writes are per command (`commandWrites_ok`, `commandWrites_error`). -/

namespace Sys2Proof.Machine

/-- The writes of a command, or the first error it raises, before completion. -/
def commandWrites (i : Instr) (s : State) : Except CmdError State :=
  match i with
  | .cfgCommit => commitConfig s
  | .cfgDefault => defaultConfig s
  | .keyB32 => keyFromBase32 s
  | .keyRaw => keyFromRaw s
  | .hotp => hotpFromCounter s
  | .time => timeFromSample s
  | .totp => totpFromSample s
  | .illegal _ rsvd => .error (illegalError rsvd)

/-- Every command completes: `exec` answers the completion with the command's writes or its error. -/
theorem exec_eq (i : Instr) (s : State) : exec i s = .next (s.completeWith i.op (commandWrites i s)) := by
  cases i <;> rfl

theorem succeed_eq_endsWell (s : State) : s.succeed = s.endsWell := rfl

theorem raise_eq_endsInError (s : State) (op : BitVec 4) (e : CmdError) :
    s.raise op e = s.endsInError e.code e.detail op := rfl

theorem completeWith_ok (s : State) (op : BitVec 4) (u : State) : s.completeWith op (.ok u) = u.endsWell := rfl

theorem completeWith_error (s : State) (op : BitVec 4) (e : CmdError) :
    s.completeWith op (.error e) = s.endsInError e.code e.detail op := rfl

/-- What a completed command can leave: its writes with a success, or the state of before with an error. -/
theorem exec_cases {i : Instr} {s t : State} (h : exec i s = .next t) :
    (∃ u, commandWrites i s = .ok u ∧ t = u.endsWell) ∨
      ∃ e, commandWrites i s = .error e ∧ t = s.endsInError e.code e.detail i.op := by
  rw [exec_eq] at h
  obtain rfl : _ = t := by injection h
  cases hw : commandWrites i s with
  | ok u => exact .inl ⟨u, rfl, rfl⟩
  | error e => exact .inr ⟨e, rfl, rfl⟩

/-- A completed command either succeeds (VALID) or reports an error (ERR); the success case. -/
theorem exec_ok {i : Instr} {s t : State} (h : exec i s = .next t) (hv : t.status.valid = true) :
    ∃ u, commandWrites i s = .ok u ∧ t = u.endsWell := by
  rcases exec_cases h with hu | ⟨e, -, rfl⟩
  · exact hu
  · cases hv

/-- The error case. -/
theorem exec_error {i : Instr} {s t : State} (h : exec i s = .next t) (he : t.status.err = true) :
    ∃ e, commandWrites i s = .error e ∧ t = s.endsInError e.code e.detail i.op := by
  rcases exec_cases h with ⟨u, -, rfl⟩ | hu
  · cases he
  · exact hu

/-- The checked sample of a TIME or TOTP: valid and not before the start (R211, R212). -/
theorem checkSample_ok {x : Sample} {start t : DWord} (h : checkSample x start = .ok t) :
    x.valid = true ∧ start.toNat ≤ t.toNat ∧ t = x.time := by
  unfold checkSample at h
  split at h
  · cases h
  · split at h
    · cases h
    · next h1 h2 =>
      injection h with h
      subst h
      exact ⟨by simpa using h1, by omega, rfl⟩

theorem checkSample_error {x : Sample} {start : DWord} {e : CmdError} (h : checkSample x start = .error e) :
    (e = .timeUnavailable ∧ x.valid = false) ∨
      (e = .timeBeforeStart ∧ x.valid = true ∧ x.time.toNat < start.toNat) := by
  unfold checkSample at h
  split at h
  · next h1 => injection h with h; exact .inl ⟨h.symm, h1⟩
  · split at h
    · next h1 h2 => injection h with h; exact .inr ⟨h.symm, by simpa using h1, h2⟩
    · cases h

theorem firstError_none {c : OtpConfig} (h : c.firstError = none) : c.Valid := by
  unfold OtpConfig.firstError at h
  split at h
  · cases h
  · split at h
    · cases h
    · split at h
      · cases h
      · next h1 h2 h3 =>
        have hs : c.step.toNat ≠ 0 := fun e => h1 (BitVec.eq_of_toNat_eq (by simpa using e))
        have hw : c.width.toNat ≠ 0 := fun e => h2 (BitVec.eq_of_toNat_eq (by simpa using e))
        simp only [Config.codeWidthMax] at h3
        exact ⟨by omega, by omega, by omega⟩

/-- The writes of each command that succeeds (10_state.md R54). -/
theorem commandWrites_ok {i : Instr} {s u : State} (h : commandWrites i s = .ok u) :
    (i = .cfgCommit ∧ s.cfg.firstError = none ∧ u = { s with act := s.cfg }) ∨
    (i = .cfgDefault ∧ u = { s with cfg := OtpConfig.default, act := OtpConfig.default }) ∨
    (i = .keyB32 ∧ ∃ k, base32Decode s.text = .ok k ∧ u = s.storeKey k) ∨
    (i = .keyRaw ∧ s.textLen.toNat ≤ 160 ∧ u = s.storeKey s.text) ∨
    (i = .hotp ∧ s.status.keyValid = true ∧ u = s.storeHotp (hotpValue s.keyBytes s.counter s.act.width.toNat)) ∨
    (i = .time ∧ ∃ t, checkSample s.commandSample s.act.start = .ok t ∧ u = s.storeTime t) ∨
    (i = .totp ∧ s.status.keyValid = true ∧ ∃ t, checkSample s.commandSample s.act.start = .ok t ∧
      u = (s.storeTime t).storeHotp (hotpValue s.keyBytes (stepCount t s.act) s.act.width.toNat)) := by
  cases i with
  | cfgCommit =>
    simp only [commandWrites, commitConfig] at h
    split at h
    · cases h
    · next hf => injection h with h; exact .inl ⟨rfl, hf, h.symm⟩
  | cfgDefault =>
    simp only [commandWrites, defaultConfig] at h
    injection h with h
    exact .inr (.inl ⟨rfl, h.symm⟩)
  | keyB32 =>
    simp only [commandWrites, keyFromBase32] at h
    split at h
    · cases h
    · next k hk => injection h with h; exact .inr (.inr (.inl ⟨rfl, k, hk, h.symm⟩))
  | keyRaw =>
    simp only [commandWrites, keyFromRaw] at h
    split at h
    · cases h
    · next hk =>
      injection h with h
      exact .inr (.inr (.inr (.inl ⟨rfl, by simpa [Config.keyCap] using hk, h.symm⟩)))
  | hotp =>
    simp only [commandWrites, hotpFromCounter] at h
    split at h
    · next hk => injection h with h; exact .inr (.inr (.inr (.inr (.inl ⟨rfl, hk, h.symm⟩))))
    · cases h
  | time =>
    simp only [commandWrites, timeFromSample] at h
    split at h
    · cases h
    · next t ht => injection h with h; exact .inr (.inr (.inr (.inr (.inr (.inl ⟨rfl, t, ht, h.symm⟩)))))
  | totp =>
    simp only [commandWrites, totpFromSample] at h
    split at h
    · cases h
    · next t ht =>
      split at h
      · next hk => injection h with h; exact .inr (.inr (.inr (.inr (.inr (.inr ⟨rfl, hk, t, ht, h.symm⟩)))))
      · cases h
  | illegal op rsvd => cases h

theorem keyFromRaw_text (s : State) : s.text.length = s.textLen.toNat := by simp [State.text, inbufBytes]

end Sys2Proof.Machine
end

