-- ==== Sys2Proof/Laws/PerInstr.lean ====
section
/-! SUPPORT. Laws stated per instruction, one lemma per constructor: the fields of an encoded command word are the
command's (30_encoding.md R101). -/

namespace Sys2Proof.Laws

/-- RSVD above OP, read as a number (R101). -/
theorem fields_toNat (rsvd : BitVec 28) (op : BitVec 4) : (rsvd ++ op : Word).toNat = rsvd.toNat * 16 + op.toNat := by
  refine (BitVec.toNat_append rsvd op).trans ?_
  rw [Nat.shiftLeft_eq, Nat.mul_comm, Nat.two_pow_add_eq_or_of_lt op.isLt]

/-- The OP field of a word made of two fields (R101). -/
theorem opField_append (rsvd : BitVec 28) (op : BitVec 4) : opField (rsvd ++ op : Word) = op := by
  apply BitVec.eq_of_toNat_eq
  have := op.isLt
  rw [opField, BitVec.extractLsb'_toNat, fields_toNat, Nat.shiftRight_zero]
  omega

/-- The RSVD field of a word made of two fields (R101). -/
theorem rsvdField_append (rsvd : BitVec 28) (op : BitVec 4) : rsvdField (rsvd ++ op : Word) = rsvd := by
  apply BitVec.eq_of_toNat_eq
  have := op.isLt
  have := rsvd.isLt
  rw [rsvdField, BitVec.extractLsb'_toNat, fields_toNat, Nat.shiftRight_eq_div_pow]
  omega

namespace EncodedFields

/-- The fields of the word of `i` are `i`'s opcode and reserved bits (R101, R103). -/
def Statement (i : Instr) : Prop := opField (encode i) = i.op ∧ rsvdField (encode i) = i.rsvd

theorem cfgCommit : Statement .cfgCommit := ⟨opField_append _ _, rsvdField_append _ _⟩
theorem cfgDefault : Statement .cfgDefault := ⟨opField_append _ _, rsvdField_append _ _⟩
theorem keyB32 : Statement .keyB32 := ⟨opField_append _ _, rsvdField_append _ _⟩
theorem keyRaw : Statement .keyRaw := ⟨opField_append _ _, rsvdField_append _ _⟩
theorem hotp : Statement .hotp := ⟨opField_append _ _, rsvdField_append _ _⟩
theorem time : Statement .time := ⟨opField_append _ _, rsvdField_append _ _⟩
theorem totp : Statement .totp := ⟨opField_append _ _, rsvdField_append _ _⟩
theorem illegal (op : BitVec 4) (rsvd : BitVec 28) : Statement (.illegal op rsvd) :=
  ⟨opField_append _ _, rsvdField_append _ _⟩

end EncodedFields

end Sys2Proof.Laws
end

