-- ==== Sys2Proof/Laws/Window.lean ====
section
/-! SUPPORT. The register window: what an offset names, and everything a transfer can do, said once
(`portTransfer_cases`). -/

namespace Sys2Proof.Machine

/-- The offset of a register named by an offset, for the registers with an effect of their own. -/
theorem target_offsets (off : BitVec 9) :
    (target off = .reg .ctrl → off = 0x008#9) ∧ (target off = .reg .status → off = 0x00C#9) ∧
      (target off = .reg .cmd → off = 0x010#9) := by
  revert off
  decide +kernel

/-- The INBUF words have index 0 to 63, at their offsets. -/
theorem target_inbuf {off : BitVec 9} {j : Nat} (h : target off = .inbuf j) :
    j < 64 ∧ off.toNat = 0x100 + 4 * j := by
  unfold target Config.inbufBase at h
  have := off.isLt
  split at h
  · cases h
  · split at h
    · injection h with h
      omega
    · split at h <;> cases h

theorem target_inbufWord {j : Nat} (h : j < 64) : target (BitVec.ofNat 9 (0x100 + 4 * j)) = .inbuf j := by
  have e : (BitVec.ofNat 9 (0x100 + 4 * j)).toNat = 0x100 + 4 * j := by
    simp only [BitVec.toNat_ofNat]
    omega
  unfold target Config.inbufBase
  rw [e, if_neg (by omega), if_pos (by omega)]
  congr 1
  omega

theorem target_misaligned {off : BitVec 9} (h : off.toNat % 4 ≠ 0) : target off = .misaligned := by
  simp [target, h]

/-- A read answers, moves the model's draw counter at most, and changes nothing else (20_memory.md R79). -/
theorem busRead_spec (s : State) (off : BitVec 9) :
    ∃ r n, s.busRead off = { s with resp := some r, draws := n } ∧ (s.status.busy = false → n = s.draws) := by
  unfold State.busRead
  split
  · next r _ =>
    unfold State.readReg
    split
    · next hb _ => exact ⟨_, s.draws + 1, rfl, fun h => by rw [h] at hb; cases hb⟩
    · exact ⟨_, s.draws, rfl, fun _ => rfl⟩
    · exact ⟨_, s.draws, rfl, fun _ => rfl⟩
  · exact ⟨_, s.draws, rfl, fun _ => rfl⟩
  · exact ⟨_, s.draws, rfl, fun _ => rfl⟩
  · exact ⟨_, s.draws, rfl, fun _ => rfl⟩

/-- What a stored register write can do (R24, R25, R32 to R40, R74). -/
theorem storeReg_cases (s : State) (r : Reg) (v : Word) :
    s.storeReg r v = s ∨ (r = .ctrl ∧ s.storeReg r v = { s with ctrl := Ctrl.ofWord v }) ∨
    (r = .status ∧ s.storeReg r v = { s with status := s.status.written v }) ∨
    (r = .cmd ∧ s.storeReg r v = s.accept v) ∨
    (r.frozenWhileBusy = true ∧ ((∃ c, s.storeReg r v = { s with cfg := c }) ∨ (∃ n, s.storeReg r v = { s with now := n }) ∨
      (∃ n, s.storeReg r v = { s with counter := n }) ∨ ∃ n, s.storeReg r v = { s with textLen := n })) := by
  cases r with
  | ctrl => exact .inr (.inl ⟨rfl, rfl⟩)
  | status => exact .inr (.inr (.inl ⟨rfl, rfl⟩))
  | cmd => exact .inr (.inr (.inr (.inl ⟨rfl, rfl⟩)))
  | cfgStartLo | cfgStartHi | cfgStepLo | cfgStepHi | cfgWidth =>
    exact .inr (.inr (.inr (.inr ⟨rfl, .inl ⟨_, rfl⟩⟩)))
  | nowLo | nowHi => exact .inr (.inr (.inr (.inr ⟨rfl, .inr (.inl ⟨_, rfl⟩)⟩)))
  | counterLo | counterHi => exact .inr (.inr (.inr (.inr ⟨rfl, .inr (.inr (.inl ⟨_, rfl⟩))⟩)))
  | textLen => exact .inr (.inr (.inr (.inr ⟨rfl, .inr (.inr (.inr ⟨_, rfl⟩))⟩)))
  | _ => exact .inl rfl

/-- What a transfer at the host port can do to the block, the response aside. -/
inductive TransferEffect (s : State) (off : BitVec 9) : Transfer → State → Prop where
  /-- A read, a write that is ignored or misaligned, or any transfer while `rst` is asserted. -/
  | none {x : Transfer} : TransferEffect s off x s
  /-- A write to CTRL. -/
  | ctrl (v : Word) : s.rst = false → off = 0x008#9 →
      TransferEffect s off (.write v) { s with ctrl := Ctrl.ofWord v }
  /-- A write to STATUS. -/
  | status (v : Word) : s.rst = false → off = 0x00C#9 →
      TransferEffect s off (.write v) { s with status := s.status.written v }
  /-- A write to CMD that is accepted. -/
  | accept (v : Word) : s.rst = false → off = 0x010#9 → s.status.busy = false →
      TransferEffect s off (.write v) (s.accept v)
  /-- A write that is dropped because a command runs. -/
  | drop (v : Word) : s.rst = false → s.status.busy = true → TransferEffect s off (.write v) s.dropWrite
  /-- A write to a staged configuration register. -/
  | cfg (v : Word) (c : OtpConfig) : s.rst = false → s.status.busy = false →
      TransferEffect s off (.write v) { s with cfg := c }
  /-- A write to NOW. -/
  | now (v : Word) (n : DWord) : s.rst = false → s.status.busy = false →
      TransferEffect s off (.write v) { s with now := n }
  /-- A write to COUNTER. -/
  | counter (v : Word) (n : DWord) : s.rst = false → s.status.busy = false →
      TransferEffect s off (.write v) { s with counter := n }
  /-- A write to TEXT_LEN. -/
  | textLen (v : Word) (n : BitVec 9) : s.rst = false → s.status.busy = false →
      TransferEffect s off (.write v) { s with textLen := n }
  /-- A write to a word of INBUF. -/
  | inbuf (v : Word) (j : Nat) : s.rst = false → s.status.busy = false → j < 64 → off.toNat = 0x100 + 4 * j →
      TransferEffect s off (.write v) { s with inbuf := writeInbufWord s.inbuf j v }

/-- Everything a transfer can do: one of the effects, then the response, and the model's draw counter. -/
theorem portTransfer_cases (s : State) (off : BitVec 9) (x : Transfer) :
    ∃ u r n, TransferEffect s off x u ∧ s.portTransfer off x = { u with resp := some r, draws := n } := by
  unfold State.portTransfer
  split
  · exact ⟨s, _, s.draws, .none, rfl⟩
  · next hrst =>
    have hrst : s.rst = false := by simpa using hrst
    cases x with
    | read =>
      obtain ⟨r, n, h, -⟩ := busRead_spec s off
      exact ⟨s, r, n, .none, h⟩
    | write v =>
      simp only [State.busWrite]
      split
      · next r hr =>
        unfold State.writeReg
        split
        · next hd =>
          exact ⟨_, _, s.draws, .drop v hrst (by simp_all), rfl⟩
        · next hd =>
          have hb : r.frozenWhileBusy = true → s.status.busy = false := fun hf => by
            simpa [hf] using hd
          rcases storeReg_cases s r v with h | ⟨rfl, h⟩ | ⟨rfl, h⟩ | ⟨rfl, h⟩ | ⟨hf, ⟨c, h⟩ | ⟨n, h⟩ | ⟨n, h⟩ | ⟨n, h⟩⟩ <;>
            rw [h]
          · exact ⟨_, _, s.draws, .none, rfl⟩
          · exact ⟨_, _, s.draws, .ctrl v hrst ((target_offsets off).1 hr), rfl⟩
          · exact ⟨_, _, s.draws, .status v hrst ((target_offsets off).2.1 hr), rfl⟩
          · exact ⟨_, _, s.draws, .accept v hrst ((target_offsets off).2.2 hr) (hb rfl), rfl⟩
          · exact ⟨_, _, s.draws, .cfg v c hrst (hb hf), rfl⟩
          · exact ⟨_, _, s.draws, .now v n hrst (hb hf), rfl⟩
          · exact ⟨_, _, s.draws, .counter v n hrst (hb hf), rfl⟩
          · exact ⟨_, _, s.draws, .textLen v n hrst (hb hf), rfl⟩
      · next j hj =>
        obtain ⟨hj, ho⟩ := target_inbuf hj
        unfold State.writeInbuf
        split
        · next hb => exact ⟨_, _, s.draws, .drop v hrst hb, rfl⟩
        · next hb => exact ⟨_, _, s.draws, .inbuf v j hrst (by simpa using hb) hj ho, rfl⟩
      · exact ⟨s, _, s.draws, .none, rfl⟩
      · exact ⟨s, _, s.draws, .none, rfl⟩

/-! ### What reads return -/

/-- A read of a register returns its value, but for a result register while BUSY (70_reset_and_hazards.md R297). -/
theorem readReg_value {s : State} {r : Reg} (h : s.status.busy = false ∨ r.resultMask = none) :
    s.readReg r = s.respond (r.value s) false := by
  unfold State.readReg
  rcases h with h | h <;> rw [h]
  cases s.status.busy <;> rfl

theorem Ctrl.word_eq (c : Ctrl) : c.word = BitVec.ofNat 32 (2 * c.tsrc.toNat + c.ie.toNat) := by
  rcases c with ⟨a, b⟩
  revert a b
  decide

theorem Status.word_eq (st : Status) :
    st.word = BitVec.ofNat 32 (32 * st.keyValid.toNat + 16 * st.ovr.toNat + 8 * st.err.toNat + 4 * st.valid.toNat +
      2 * st.done.toNat + st.busy.toNat) := by
  rcases st with ⟨a, b, c, d, e, f⟩
  revert a b c d e f
  decide

theorem ErrReg.word_eq (e : ErrReg) :
    e.word = BitVec.ofNat 32 (e.op.toNat * 2 ^ 16 + e.detail.toNat * 2 ^ 8 + e.code.toNat) := by
  rcases e with ⟨a, b, c⟩
  revert a b c
  decide +kernel

end Sys2Proof.Machine
end

