-- ==== Sys2Proof/Laws/Step.lean ====
section
/-! SUPPORT. What one step can do, said once (`step_cases`): complete a command, perform a transfer, follow a port, reset,
or nothing. -/

namespace Sys2Proof.Machine

/-! ### The step at each event -/

theorem step_port {s : State} {off : BitVec 9} {x : Transfer} {rest : List Event}
    (h : s.events = .port off x :: rest) : step s = .next ((s.begin rest).portTransfer off x) := by
  simp [step, runNext, h, runEvent]

/-- A read that is performed. -/
theorem step_read {s : State} {off : BitVec 9} {rest : List Event} (hr : s.rst = false)
    (h : s.events = .port off .read :: rest) : step s = .next ((s.begin rest).busRead off) := by
  rw [step_port h]
  simp [State.portTransfer, hr]

/-- A write that is performed. -/
theorem step_write {s : State} {off : BitVec 9} {v : Word} {rest : List Event} (hr : s.rst = false)
    (h : s.events = .port off (.write v) :: rest) : step s = .next ((s.begin rest).busWrite off v) := by
  rw [step_port h]
  simp [State.portTransfer, hr]

/-- The completion of the pending command. -/
theorem step_complete {s : State} {p : Pending} {rest : List Event} (hr : s.rst = false) (hp : s.pend = some p)
    (h : s.events = .complete :: rest) : step s = exec (decode p.word) (s.begin rest) := by
  simp [step, runNext, h, runEvent, runPending, hr, hp]

/-- Without an event left the engine completes the pending command. -/
theorem step_scheduleEmpty {s : State} {p : Pending} (hr : s.rst = false) (hp : s.pend = some p)
    (h : s.events = []) : step s = exec (decode p.word) (s.begin []) := by
  simp [step, runNext, h, runPending, hr, hp]

/-! ### Everything a step can do -/

/-- What a step that answers `t` did. -/
inductive StepEffect (s : State) : State → Prop where
  /-- The engine completed the pending command. -/
  | completion (i : Instr) (t : State) : s.completing = some i → exec i (s.begin s.events.tail) = .next t →
      StepEffect s t
  /-- A transfer was performed at the host port. -/
  | transfer (off : BitVec 9) (x : Transfer) (u : State) (r : Response) (n : Nat) : s.incoming = some (off, x) →
      TransferEffect (s.begin s.events.tail) off x u → StepEffect s { u with resp := some r, draws := n }
  /-- Nothing but the response and the schedule changed. -/
  | quiet (r : Option Response) : s.completing = none → StepEffect s { s with events := s.events.tail, resp := r }
  /-- The platform drove the time port. -/
  | timePort (v : Bool) (x : DWord) : s.completing = none → StepEffect s ((s.begin s.events.tail).driveTime v x)
  /-- `rst` was asserted. -/
  | assert : s.completing = none → s.resetting = true → StepEffect s (s.begin s.events.tail).assertReset
  /-- `rst` was released. -/
  | release : s.completing = none → StepEffect s (s.begin s.events.tail).releaseReset

/-- What completing the pending command does: nothing, or the command. -/
theorem runPending_cases {s t : State} (h : runPending s = .next t) :
    (s.rst = true ∨ s.pend = none) ∧ t = s ∨ s.rst = false ∧ ∃ p, s.pend = some p ∧ exec (decode p.word) s = .next t := by
  unfold runPending at h
  split at h
  · next hr =>
    injection h with h
    exact .inl ⟨.inl hr, h.symm⟩
  · next hr =>
    split at h
    · next hp =>
      injection h with h
      exact .inl ⟨.inr hp, h.symm⟩
    · next p hp => exact .inr ⟨by simpa using hr, p, hp, h⟩

/-- A transfer, scheduled at the port, is an effect of the step. -/
theorem portTransfer_effect {s : State} {rest : List Event} {off : BitVec 9} {x : Transfer}
    (ht : s.events.tail = rest) (hc : s.completing = none) (hi : s.rst = false → s.incoming = some (off, x)) :
    StepEffect s ((s.begin rest).portTransfer off x) := by
  subst ht
  by_cases hr : s.rst = true
  · have : (s.begin s.events.tail).portTransfer off x =
        { s with events := s.events.tail, resp := some { data := 0#32, error := false } } := by
      simp [State.portTransfer, hr, State.respond, State.begin]
    rw [this]
    exact .quiet _ hc
  · obtain ⟨u, r, n, hu, he⟩ := portTransfer_cases (s.begin s.events.tail) off x
    rw [he]
    exact .transfer off x u r n (hi (by simpa using hr)) hu

/-- Everything a step can do when it answers a next state. -/
theorem step_cases {s t : State} (h : step s = .next t) : StepEffect s t := by
  unfold step runNext at h
  split at h
  · next he =>
    have hb : s.begin [] = s.begin s.events.tail := by rw [he]; rfl
    rw [hb] at h
    rcases runPending_cases h with ⟨hq, rfl⟩ | ⟨hr, p, hp, hx⟩
    · refine .quiet none ?_
      rcases hq with hq | hq <;> simp only [State.begin_rst, State.begin_pend] at hq <;>
        simp [State.completing, he, hq]
    · simp only [State.begin_rst, State.begin_pend] at hr hp
      exact .completion _ _ (by simp [State.completing, he, hr, hp]) hx
  · next e rest he =>
    have ht : s.events.tail = rest := by rw [he]; rfl
    cases e with
    | port off x =>
      injection h with h
      subst h
      exact portTransfer_effect ht (by simp [State.completing, he]) (fun hr => by simp [State.incoming, he, hr])
    | platform addr x =>
      injection h with h
      subst h
      unfold State.platformTransfer
      split
      · next off ho =>
        exact portTransfer_effect ht (by simp [State.completing, he])
          (fun hr => by simp [State.incoming, he, hr, ho])
      · rw [← ht]
        exact .quiet none (by simp [State.completing, he])
    | timePort v x =>
      injection h with h
      subst h
      rw [← ht]
      exact .timePort v x (by simp [State.completing, he])
    | rst level =>
      cases level with
      | true =>
        injection h with h
        subst h
        rw [← ht]
        exact .assert (by simp [State.completing, he]) (by simp [State.resetting, he])
      | false =>
        injection h with h
        subst h
        rw [← ht]
        exact .release (by simp [State.completing, he])
    | complete =>
      simp only [runEvent] at h
      rw [← ht] at h
      rcases runPending_cases h with ⟨hq, rfl⟩ | ⟨hr, p, hp, hx⟩
      · refine .quiet none ?_
        rcases hq with hq | hq <;> simp only [State.begin_rst, State.begin_pend] at hq <;>
          simp [State.completing, he, hq]
      · simp only [State.begin_rst, State.begin_pend] at hr hp
        exact .completion _ _ (by simp [State.completing, he, hr, hp]) hx
    | idle =>
      injection h with h
      subst h
      rw [← ht]
      exact .quiet none (by simp [State.completing, he])
    | powerDown => cases h

/-- A step takes one event off the schedule. -/
theorem step_events {s t : State} (h : step s = .next t) : t.events = s.events.tail := by
  rcases step_cases h with ⟨i, t, -, he⟩ | ⟨off, x, u, r, n, -, he⟩ | ⟨r, -⟩ | ⟨v, x, -⟩ | ⟨-, -⟩ | ⟨-⟩
  · rcases exec_cases he with ⟨u, hu, rfl⟩ | ⟨e, -, rfl⟩
    · rcases commandWrites_ok hu with ⟨-, -, rfl⟩ | ⟨-, rfl⟩ | ⟨-, k, -, rfl⟩ | ⟨-, -, rfl⟩ | ⟨-, -, rfl⟩ | ⟨-, x, -, rfl⟩ |
        ⟨-, -, x, -, rfl⟩ <;> rfl
    · rfl
  · cases he <;> rfl
  all_goals rfl

end Sys2Proof.Machine
end

