-- ==== Sys2Proof/Tests/Slice0.lean ====
section
/-! SUPPORT. The model's own tests, expected values from 95_test_vectors.md and the rules' examples, and a witness for the
hypotheses of every statement of Certificates/Slice0/Obligations.lean that has some. -/

namespace Sys2Proof.Tests

open Sys2Proof.Machine

/-! ### Small states -/

/-- INBUF holding `bs` and then zeros. -/
def bufferOf (bs : List Byte) : Memory := inbufAddrs.map fun a => (a, bs.getD (a - 0x100) 0#8)

/-- The reset state with the bytes `bs` written to INBUF and their number to TEXT_LEN. -/
def withBytes (bs : List Byte) : State :=
  { State.reset with inbuf := bufferOf bs, textLen := BitVec.ofNat 9 bs.length }

/-- The key of the RFC 4226 vectors, ASCII `12345678901234567890` (95_test_vectors.md 1.1). -/
def rfcKey : List Byte :=
  [0x31#8, 0x32#8, 0x33#8, 0x34#8, 0x35#8, 0x36#8, 0x37#8, 0x38#8, 0x39#8, 0x30#8] ++
    [0x31#8, 0x32#8, 0x33#8, 0x34#8, 0x35#8, 0x36#8, 0x37#8, 0x38#8, 0x39#8, 0x30#8]

/-- The RFC key provisioned, and a code width of 8 digits active. -/
def keyed : State := { State.reset.storeKey rfcKey with act := { start := 0#64, step := 30#64, width := 8#4 } }

/-- `s` with the word `w` accepted and the sample `x` taken. -/
def running (s : State) (w : Word) (x : Option Sample) : State :=
  { s with status := s.status.accepted, err := ErrReg.clear, pend := some { word := w, sample := x } }

/-- `s` with the time `t` sampled for the pending command `w`. -/
def sampled (s : State) (w : Word) (t : DWord) : State := running s w (some { valid := true, time := t })

/-- The state an outcome answers. -/
def state? (o : Host.Outcome State Fault Refusal) : Option State :=
  match o with
  | .next t => some t
  | .fault _ => none
  | .refused _ => none

/-- What STATUS and ERR read after an outcome. -/
def report? (o : Host.Outcome State Fault Refusal) : Option (Word × Word) :=
  (state? o).map fun t => (t.status.word, t.err.word)

/-- What the port answers to the transfer `x` at `off`, from `s`. -/
def answer? (s : State) (off : BitVec 9) (x : Transfer) : Option Response :=
  (state? (step { s with events := [.port off x] })).bind State.resp

/-! ### Well-formedness and decoding (30_encoding.md R103 to R105, 95_test_vectors.md 2.8) -/

theorem test_wf_refuses_legal_word_as_illegal :
    (Instr.illegal 5#4 0#28).wf = false ∧ (Instr.illegal 1#4 0#28).wf = false ∧ (Instr.illegal 7#4 0#28).wf = false := by
  decide

theorem test_wf_accepts_illegal_words :
    (Instr.illegal 0#4 0#28).wf = true ∧ (Instr.illegal 8#4 0#28).wf = true ∧ (Instr.illegal 5#4 1#28).wf = true := by
  decide

theorem test_decode_commands :
    decode 0b00000000000000000000000000000001#32 = .cfgCommit ∧
    decode 0b00000000000000000000000000000010#32 = .cfgDefault ∧
    decode 0b00000000000000000000000000000011#32 = .keyB32 ∧
    decode 0b00000000000000000000000000000100#32 = .keyRaw ∧
    decode 0b00000000000000000000000000000101#32 = .hotp ∧
    decode 0b00000000000000000000000000000110#32 = .time ∧
    decode 0b00000000000000000000000000000111#32 = .totp := by decide

theorem test_decode_illegal :
    decode 0b00000000000000000000000000000000#32 = .illegal 0#4 0#28 ∧
    decode 0b00000000000000000000000000001000#32 = .illegal 8#4 0#28 ∧
    decode 0b00000000000000000000000000001111#32 = .illegal 15#4 0#28 ∧
    decode 0b00000000000000000000000000010101#32 = .illegal 5#4 1#28 ∧
    decode 0b10000000000000000000000000000001#32 = .illegal 1#4 0x8000000#28 ∧
    decode 0xFFFFFFFF#32 = .illegal 15#4 0xFFFFFFF#28 := by decide

theorem test_decode_table_word_is_zero_extended :
    decodeTableWord 8 0x105 = some .hotp ∧ decodeTableWord 0 7 = some (.illegal 0#4 0#28) := by decide

theorem test_decode_rejects_wide_words_by_name :
    decodeBits 40 5 = .error (.widerThanOneWord 40) := by decide

/-- A word stored with `withFetchWord` is the one the next step runs, as the first after reset. -/
theorem test_fetch_word_runs_next :
    report? (step (State.reset.withFetchWord 32 0x00000015)) = some (0x0A#32, 0x00050205#32) ∧
      report? (step (State.reset.withFetchWord 32 0x00000002)) = some (0x06#32, 0#32) := by decide

/-! ### The commands, at most two tests each -/

/-- 95_test_vectors.md 2.5, row `0x3C, 8`. -/
theorem test_cfg_commit :
    (state? (exec .cfgCommit { State.reset with cfg := { start := 100#64, step := 60#64, width := 8#4 } })).map
      (fun t => (t.act, t.status.word, t.err.word)) =
        some ({ start := 100#64, step := 60#64, width := 8#4 }, 0x06#32, 0#32) := by decide

/-- 95_test_vectors.md 2.5: step and width 0 report 3.1; width 10 reports 3.3; the active copy stays. -/
theorem test_cfg_commit_errors :
    (state? (exec .cfgCommit { State.reset with cfg := { start := 0#64, step := 0#64, width := 0#4 } })).map
      (fun t => (t.act, t.err.word)) = some ({ start := 0#64, step := 30#64, width := 6#4 }, 0x00010103#32) ∧
    report? (exec .cfgCommit { State.reset with cfg := { start := 0#64, step := 30#64, width := 10#4 } }) =
      some (0x0A#32, 0x00010303#32) := by decide

/-- 95_test_vectors.md 2.5: after `(100, 60, 8)` was committed. -/
theorem test_cfg_default :
    (state? (exec .cfgDefault { State.reset with
        cfg := { start := 100#64, step := 60#64, width := 8#4 }
        act := { start := 100#64, step := 60#64, width := 8#4 } })).map (fun t => (t.cfg, t.act, t.status.word)) =
      some ({ start := 0#64, step := 30#64, width := 6#4 }, { start := 0#64, step := 30#64, width := 6#4 }, 0x06#32) := by
  decide

/-- `MZXW6YQ=` (95_test_vectors.md 2.3). -/
def textFoob : List Byte := [0x4D#8, 0x5A#8, 0x58#8, 0x57#8, 0x36#8, 0x59#8, 0x51#8, 0x3D#8]

/-- `MZXW6YT=`, whose unused bits are not 0 (95_test_vectors.md 2.3). -/
def textUnusedBits : List Byte := [0x4D#8, 0x5A#8, 0x58#8, 0x57#8, 0x36#8, 0x59#8, 0x54#8, 0x3D#8]

/-- 95_test_vectors.md 2.3, row `MZXW6YQ=`. -/
theorem test_key_b32 :
    (state? (exec .keyB32 (withBytes textFoob))).map (fun t => (t.key.take 5, t.keyLen, t.status.word)) =
      some ([0x66#8, 0x6F#8, 0x6F#8, 0x62#8, 0x00#8], 4#8, 0x26#32) := by decide +kernel

/-- 95_test_vectors.md 2.3: `MZXW6YT=` 1.4, `mzxw6yt=` 1.1, `========` 1.2, seven bytes 1.3. -/
theorem test_key_b32_errors :
    report? (exec .keyB32 (withBytes textUnusedBits)) = some (0x0A#32, 0x00030401#32) ∧
    report? (exec .keyB32 (withBytes (textUnusedBits.map (· ||| 0x20#8)))) = some (0x0A#32, 0x00030101#32) ∧
    report? (exec .keyB32 (withBytes (List.replicate 8 0x3D#8))) = some (0x0A#32, 0x00030201#32) ∧
    report? (exec .keyB32 (withBytes (textFoob.take 7))) = some (0x0A#32, 0x00030301#32) := by decide +kernel

/-- 95_test_vectors.md 2.4, row 20. -/
theorem test_key_raw :
    (state? (exec .keyRaw (withBytes rfcKey))).map (fun t => (t.keyBytes, t.keyLen, t.status.word)) =
      some (rfcKey, 20#8, 0x26#32) := by decide +kernel

/-- 95_test_vectors.md 2.4, row 161. -/
theorem test_key_raw_too_long :
    report? (exec .keyRaw { State.reset with textLen := 161#9 }) = some (0x0A#32, 0x00040204#32) := by decide

/-- 42_hotp_engine.md R184's example: counter 1, 8 digits. -/
theorem test_hotp :
    (state? (exec .hotp { keyed with counter := 1#64 })).map
      (fun t => (t.digest.h0, t.digest.h4, t.offset, t.trunc, t.code, t.status.word)) =
        some (0x75a48a19#32, 0x7a2d33ab#32, 11#4, 0x41397eea#31, 94287082#32, 0x26#32) := by decide +kernel

/-- 95_test_vectors.md 2.2: the offset-15 row; and without a key 4.1. -/
theorem test_hotp_corner_cases :
    (state? (exec .hotp { keyed with counter := 34#64, act := OtpConfig.default })).map
      (fun t => (t.offset, t.trunc, t.code)) = some (15#4, 0x19da7dbf#31, 749439#32) ∧
    report? (exec .hotp State.reset) = some (0x0A#32, 0x00050104#32) := by decide +kernel

/-- 95_test_vectors.md 2.6, row `2^64-1, 0, 30`. -/
theorem test_time :
    (state? (exec .time (sampled State.reset 6#32 0xFFFFFFFFFFFFFFFF#64))).map
      (fun t => (t.tsamp, t.stepReg, t.remain, t.status.word)) =
        some (0xFFFFFFFFFFFFFFFF#64, 0x0888888888888888#64, 15#64, 0x06#32) := by decide +kernel

/-- 95_test_vectors.md 2.6: a sample before the start 2.2; no time 2.1; nothing of the sample is kept. -/
theorem test_time_errors :
    (state? (exec .time { sampled State.reset 6#32 99#64 with
        act := { start := 100#64, step := 30#64, width := 6#4 } })).map (fun t => (t.tsamp, t.err.word)) =
      some (0#64, 0x00060202#32) ∧
    report? (exec .time (running State.reset 6#32 (some { valid := false, time := 59#64 }))) =
      some (0x0A#32, 0x00060102#32) := by decide +kernel

/-- 95_test_vectors.md 2.7, row 2000000000. -/
theorem test_totp :
    (state? (exec .totp (sampled keyed 7#32 2000000000#64))).map
      (fun t => (t.stepReg, t.remain, t.offset, t.trunc, t.code)) =
        some (66666666#64, 10#64, 15#4, 0x7b56b13d#31, 69279037#32) := by decide +kernel

/-- 95_test_vectors.md 2.7: with no key, no time 2.1, then 4.1 with TSAMP not written. -/
theorem test_totp_errors :
    report? (exec .totp (running State.reset 7#32 (some { valid := false, time := 59#64 }))) =
      some (0x0A#32, 0x00070102#32) ∧
    (state? (exec .totp (sampled State.reset 7#32 59#64))).map (fun t => (t.tsamp, t.err.word)) =
      some (0#64, 0x00070104#32) := by decide +kernel

/-- 95_test_vectors.md 2.8. -/
theorem test_illegal :
    report? (exec (decode 0xF#32) State.reset) = some (0x0A#32, 0x000F0105#32) ∧
    report? (exec (decode 0x10#32) State.reset) = some (0x0A#32, 0x00000205#32) := by decide

/-! ### The window, reset and the interrupt (95_test_vectors.md 2.9, 2.10) -/

theorem test_reads_after_reset :
    answer? State.reset 0x000#9 .read = some { data := 0x4F545031#32, error := false } ∧
    answer? State.reset 0x004#9 .read = some { data := 0x00A00100#32, error := false } ∧
    answer? State.reset 0x00C#9 .read = some { data := 0#32, error := false } ∧
    answer? State.reset 0x048#9 .read = some { data := 0x1E#32, error := false } ∧
    answer? State.reset 0x050#9 .read = some { data := 6#32, error := false } ∧
    answer? State.reset 0x0FC#9 .read = some { data := 0#32, error := false } ∧
    answer? State.reset 0x002#9 .read = some { data := 0#32, error := true } := by decide +kernel

theorem test_writes_keep_the_listed_bits :
    ((state? (step { State.reset with events := [.port 0x008#9 (.write 0xFFFFFFFF#32)] })).map fun t => t.ctrl.word) =
      some 3#32 ∧
    ((state? (step { State.reset with events := [.port 0x030#9 (.write 0x1F#32)] })).map fun t => t.cfg.width) =
      some 0xF#4 ∧
    ((state? (step { State.reset with events := [.port 0x070#9 (.write 0x3FF#32)] })).map fun t => t.textLen) =
      some 0x1FF#9 := by decide +kernel

/-- 20_memory.md R75's example: INBUF0 = 0x57585A4D, INBUF1 = 0x3D515936 is `MZXW6YQ=`. -/
theorem test_inbuf_lanes :
    inbufBytes (writeInbufWord (writeInbufWord (bufferOf []) 0 0x57585A4D#32) 1 0x3D515936#32) 8 = textFoob := by
  decide +kernel

theorem test_status_write_clears_done_and_overrun :
    (({ busy := false, done := true, valid := true, err := false, ovr := true, keyValid := true } : Status).written
      0xFFFFFFFF#32).word = 0x24#32 := by decide

/-- The STATUS values of 95_test_vectors.md 2.9: busy with a key, and a write dropped. -/
theorem test_busy_and_overrun :
    ((state? (step { keyed with events := [.port 0x010#9 (.write 5#32)] })).map fun t => t.status.word) = some 0x21#32 ∧
    ((state? (step { running keyed 5#32 none with events := [.port 0x068#9 (.write 9#32)] })).map fun t =>
      (t.status.word, t.counter)) = some (0x31#32, 0#64) := by decide +kernel

/-- A completion raises `irq` with IE = 1, and the write of STATUS bit 1 lowers it. -/
theorem test_interrupt :
    ((state? (exec .cfgDefault { State.reset with ctrl := { ie := true, tsrc := false } })).map State.irq) = some true ∧
    ((state? (step { State.reset with
        ctrl := { ie := true, tsrc := false }, status := State.reset.status.completed true
        events := [.port 0x00C#9 (.write 2#32)] })).map State.irq) = some false := by decide +kernel

/-- `rst` abandons a running command (70_reset_and_hazards.md R292). -/
theorem test_reset_abandons_the_command :
    ((state? (step { running keyed 5#32 none with events := [.rst true] })).map fun t =>
      (t.pend, t.status.word, t.keyLen, t.act)) =
        some (none, 0#32, 0#8, { start := 0#64, step := 30#64, width := 6#4 }) := by decide +kernel

/-- 10_state.md R48: both levels are taken at once. -/
theorem test_time_port_is_driven :
    (state? (step { State.reset with events := [.timePort true 59#64] })).map (fun t => (t.timeValid, t.timeIn, t.now)) =
      some (true, 59#64, 0#64) := by decide

theorem test_power_down_is_refused : step { State.reset with events := [.powerDown] } = .refused .powerCycle := rfl

/-! ### Witnesses: states and operands that meet the hypotheses of the statements -/

theorem witness_DecodeOfEncodeReturnsCommand :
    (Instr.totp).wf = true ∧ (Instr.illegal 8#4 0#28).wf = true ∧ (Instr.illegal 7#4 0xFFFFFFF#28).wf = true := by decide

theorem witness_LegalWordsAreExactlyOneToSeven :
    (0x10#32 : Word).extractLsb' 4 28 ≠ 0#28 ∧
    ((0#32 : Word).extractLsb' 4 28 = 0#28 ∧ (0#32 : Word).extractLsb' 0 4 = 0#4) ∧
    ((8#32 : Word).extractLsb' 4 28 = 0#28 ∧ 8 ≤ ((8#32 : Word).extractLsb' 0 4).toNat) := by decide

theorem witness_StepRunsThePendingCommand :
    (running State.reset 5#32 none).rst = false ∧
    (running State.reset 5#32 none).pend = some { word := 5#32, sample := none } ∧
    ({ running State.reset 5#32 none with events := [.complete] } : State).events = .complete :: [] ∧
    (running State.reset 5#32 none).events = [] := ⟨rfl, rfl, rfl, rfl⟩

theorem witness_EveryStepAnswersNextUnlessPoweredDown :
    (∃ rest, ({ State.reset with events := [.powerDown] } : State).events = .powerDown :: rest) ∧
    (¬ ∃ rest, State.reset.events = .powerDown :: rest) ∧
    ({ State.reset with events := [.timePort true 59#64] } : State).events = .timePort true 59#64 :: [] ∧
    ({ State.reset with events := [.idle] } : State).events = .idle :: [] ∧
    (State.reset.events = [] ∧ State.reset.pend = none) :=
  ⟨⟨[], rfl⟩, (fun ⟨_, h⟩ => by cases h), rfl, rfl, rfl, rfl⟩

theorem witness_CommandWriteIsAcceptedOrDropped :
    (∀ x, ({ State.reset with events := [.port 0x010#9 x] } : State).rst = false ∧
      ({ State.reset with events := [.port 0x010#9 x] } : State).status.busy = false ∧
      ({ State.reset with events := [.port 0x010#9 x] } : State).events = .port 0x010#9 x :: []) ∧
    (running State.reset 5#32 none).rst = false ∧ (running State.reset 5#32 none).status.busy = true :=
  ⟨fun _ => ⟨rfl, rfl, rfl⟩, rfl, rfl⟩

theorem witness_TimeIsSampledOnceAtAcceptance :
    (State.reset.rst = false ∧ State.reset.status.busy = false ∧ decode 6#32 = .time ∧ decode 7#32 = .totp) ∧
    (State.reset.ctrl.tsrc = false ∧ (Ctrl.ofWord 2#32).tsrc = true) ∧
    (sampled State.reset 6#32 59#64).pend = some { word := 6#32, sample := some { valid := true, time := 59#64 } } := by
  decide

/-- A schedule without an assertion of `rst`, and one with it. -/
theorem witness_EveryPendingCommandCompletes :
    ((running State.reset 5#32 none).pend.isSome = true ∧ (running State.reset 5#32 none).status.busy = true ∧
      (running State.reset 5#32 none).rst = false ∧ (running State.reset 5#32 none).powered ∧
      .rst true ∉ (running State.reset 5#32 none).events) ∧
    ({ running State.reset 5#32 none with events := [.rst true] } : State).powered :=
  ⟨⟨rfl, rfl, rfl, by simp [State.powered, running, State.reset], by simp [running, State.reset]⟩,
    by simp [State.powered]⟩

theorem witness_RunningCommandIsFrozen :
    ∃ s t : State, s.status.busy = true ∧ s.pend.isSome = true ∧ s.rst = false ∧ step s = .next t ∧
      s.completing = none ∧ s.resetting = false :=
  ⟨{ running keyed 5#32 none with events := [.port 0x060#9 (.write 1#32)] }, _, rfl, rfl, rfl, rfl, rfl, rfl⟩

theorem witness_ErrorEntryIsAllOrNothing :
    ∃ t, exec .hotp State.reset = .next t ∧ t.status.err = true := ⟨_, rfl, rfl⟩

theorem witness_ReportedErrorsAreTheTableRows :
    (∃ t, exec .keyRaw { State.reset with textLen := 161#9 } = .next t ∧ t.status.err = true) ∧
    (∃ t, exec (.illegal 0#4 0#28) State.reset = .next t ∧ t.status.err = true) := ⟨⟨_, rfl, rfl⟩, ⟨_, rfl, rfl⟩⟩

theorem witness_CompletionSetsTheFlags : ∃ t, exec .cfgDefault State.reset = .next t := ⟨_, rfl⟩

theorem witness_CommandsWriteOnlyTheirRegisters :
    (∃ t, exec .time (sampled State.reset 6#32 59#64) = .next t) ∧ ∃ t, exec .hotp keyed = .next t :=
  ⟨⟨_, rfl⟩, ⟨_, rfl⟩⟩

theorem witness_ResultsAreComputedFresh :
    ∃ t, exec .time (sampled State.reset 6#32 59#64) = .next t ∧ t.status.valid = true := ⟨_, rfl, rfl⟩

theorem witness_IllegalCommandIsReported : decode 8#32 = .illegal 8#4 0#28 := by decide

theorem witness_CfgCommitValidatesThenActivates :
    (0#64 : DWord) = 0#64 ∧ ((1#64 : DWord) ≠ 0#64 ∧ (0#4 : BitVec 4) = 0#4) ∧
    ((1#64 : DWord) ≠ 0#64 ∧ 9 < (10#4 : BitVec 4).toNat) ∧
    ((1#64 : DWord) ≠ 0#64 ∧ 1 ≤ (1#4 : BitVec 4).toNat ∧ (9#4 : BitVec 4).toNat ≤ 9) := by decide

theorem witness_KeyB32StoresTheDecodedKey :
    base32Decode ((List.range (withBytes textFoob).textLen.toNat).map fun i => inbufByte (withBytes textFoob).inbuf i) =
      .ok [0x66#8, 0x6F#8, 0x6F#8, 0x62#8] ∧
    base32Decode ((List.range (withBytes textUnusedBits).textLen.toNat).map fun i =>
      inbufByte (withBytes textUnusedBits).inbuf i) = .error .unusedBits := by decide +kernel

theorem witness_KeyRawStoresTheBytes :
    160 < ({ State.reset with textLen := 161#9 } : State).textLen.toNat ∧
    ({ State.reset with textLen := 160#9 } : State).textLen.toNat ≤ 160 := by decide

theorem witness_NewKeyReplacesTheOldOne :
    ∃ t, exec .keyRaw (withBytes rfcKey) = .next t ∧ t.status.valid = true := ⟨_, rfl, rfl⟩

/-- Clause by clause: seven symbols and 264 are malformed, `a` is no symbol, `=` stands in a group that is not the last,
`=` stands before `Q` in the last group (`MZXW6Y=Q`); and in the last group after a full one: counts 2 and 8, the symbol
`T` (19) whose low 3 bits are not 0 before one `=`, and `Q` (16) whose low 4 bits are 0 before four. -/
theorem witness_Base32ChecksInOrder :
    ((textFoob.take 7).length % 8 ≠ 0 ∧ 256 < (List.replicate 264 0x41#8).length ∧
      (∃ c ∈ List.replicate 8 0x61#8, c ≠ 0x3D#8 ∧ symbolValue c = none)) ∧
    ((textFoob ++ textFoob).length % 8 = 0 ∧ (∀ c ∈ textFoob ++ textFoob, c = 0x3D#8 ∨ symbolValue c ≠ none) ∧
      0x3D#8 ∈ (textFoob ++ textFoob).take ((textFoob ++ textFoob).length - 8)) ∧
    ((textFoob.take 6 ++ [0x3D#8, 0x51#8])[6]? = some 0x3D#8 ∧ (textFoob.take 6 ++ [0x3D#8, 0x51#8])[7]? = some 0x51#8 ∧
      (0x51#8 : Byte) ≠ 0x3D#8) ∧
    ((List.replicate 248 0x41#8 : List Byte).length + 8 ≤ 256 ∧ (List.replicate 248 0x41#8 : List Byte).length % 8 = 0 ∧
      (textFoob.take 6).length + 2 = 8 ∧ ([] : List Byte).length + 8 = 8 ∧ 2 ∈ [2, 5, 7, 8] ∧ 8 ∈ [2, 5, 7, 8] ∧
      ∀ c ∈ List.replicate 248 0x41#8 ++ textFoob.take 6, symbolValue c ≠ none) ∧
    ((1, 4, 3) ∈ [(0, 5, 0), (1, 4, 3), (3, 3, 1), (4, 2, 4), (6, 1, 2)] ∧
      textUnusedBits.take 7 = textFoob.take 6 ++ [0x54#8] ∧ symbolValue 0x54#8 = some 19 ∧ 19 % 2 ^ 3 ≠ 0) ∧
    ((4, 2, 4) ∈ [(0, 5, 0), (1, 4, 3), (3, 3, 1), (4, 2, 4), (6, 1, 2)] ∧ symbolValue 0x51#8 = some 16 ∧
      16 % 2 ^ 4 = 0) := by decide +kernel

theorem witness_Base32RoundTripThroughKeyB32 :
    ([0x66#8, 0x6F#8, 0x6F#8, 0x62#8] : List Byte).length ≤ 160 ∧
    (withBytes textFoob).textLen.toNat = (base32Encode [0x66#8, 0x6F#8, 0x6F#8, 0x62#8]).length ∧
    ((List.range (withBytes textFoob).textLen.toNat).map fun i => inbufByte (withBytes textFoob).inbuf i) =
      base32Encode [0x66#8, 0x6F#8, 0x6F#8, 0x62#8] := by decide +kernel

theorem witness_Base32AcceptsOnlyCanonicalText : base32Decode textFoob = .ok [0x66#8, 0x6F#8, 0x6F#8, 0x62#8] := by
  decide +kernel

theorem witness_Sha1ScheduleFollowsItsRecurrence : (List.replicate 64 0#8 : List Byte).length = 64 := by decide

theorem witness_HmacHandlesShortAndLongKeys :
    rfcKey.length ≤ 64 ∧ rfcKey.length + 44 ≤ 64 ∧ 64 < (List.replicate 65 0#8 : List Byte).length := by decide

theorem witness_HotpWritesTheCode : State.reset.status.keyValid = false ∧ keyed.status.keyValid = true := ⟨rfl, rfl⟩

theorem witness_DigestRegistersHoldTheOuterHash :
    ∃ t, exec .hotp keyed = .next t ∧ t.status.valid = true := ⟨_, rfl, rfl⟩

theorem witness_CodeIsInRange :
    keyed.act.Valid ∧ ∃ t, exec .hotp keyed = .next t ∧ t.status.valid = true :=
  ⟨by unfold OtpConfig.Valid; decide, _, rfl, rfl⟩

/-- Two states with one key and one counter and different widths. -/
theorem witness_HotpIsDeterministicAndWidthIndependent :
    ∃ t t', exec .hotp keyed = .next t ∧ exec .hotp { keyed with act := OtpConfig.default } = .next t' ∧
      t.status.valid = true ∧ t'.status.valid = true ∧
      keyed.key.take keyed.keyLen.toNat = ({ keyed with act := OtpConfig.default } : State).key.take keyed.keyLen.toNat ∧
      keyed.counter = ({ keyed with act := OtpConfig.default } : State).counter :=
  ⟨_, _, rfl, rfl, rfl, rfl, rfl, rfl⟩

theorem witness_PublishedVectorsAreMet : rfcKey.length = 20 := by decide

/-- At the boundary `t = ACT_START`, one second before it, and without a time. -/
theorem witness_TimeWritesStepAndRemaining :
    (sampled State.reset 6#32 0#64).pend = some { word := 6#32, sample := some { valid := true, time := 0#64 } } ∧
    State.reset.act.start.toNat ≤ (0#64 : DWord).toNat ∧ 0 < State.reset.act.step.toNat ∧
    (99#64 : DWord).toNat < (100#64 : DWord).toNat ∧
    (running State.reset 6#32 (some { valid := false, time := 0#64 })).pend =
      some { word := 6#32, sample := some { valid := false, time := 0#64 } } := by decide

theorem witness_StepCounterIsMonotone :
    0 < OtpConfig.default.step.toNat ∧ OtpConfig.default.start.toNat ≤ (29#64 : DWord).toNat ∧
    (29#64 : DWord).toNat ≤ (59#64 : DWord).toNat ∧
    (59#64 : DWord).toNat = (29#64 : DWord).toNat + OtpConfig.default.step.toNat := by decide

theorem witness_TimeResultsNameOneWindow :
    0 < (sampled State.reset 6#32 59#64).act.step.toNat ∧
    ∃ t, exec .time (sampled State.reset 6#32 59#64) = .next t ∧ t.status.valid = true := ⟨by decide, _, rfl, rfl⟩

theorem witness_TotpWritesCodeOfItsSample :
    (sampled keyed 7#32 0#64).pend = some { word := 7#32, sample := some { valid := true, time := 0#64 } } ∧
    keyed.act.start.toNat ≤ (0#64 : DWord).toNat ∧ 0 < keyed.act.step.toNat ∧ keyed.status.keyValid = true ∧
    State.reset.status.keyValid = false ∧ (99#64 : DWord).toNat < (100#64 : DWord).toNat := by decide

theorem witness_TotpIsTimeThenHotp :
    ∃ t u v : State, exec .totp (sampled keyed 7#32 59#64) = .next t ∧ t.status.valid = true ∧
      exec .time (sampled keyed 7#32 59#64) = .next u ∧ exec .hotp { u with counter := u.stepReg } = .next v :=
  ⟨_, _, _, rfl, rfl, rfl, rfl⟩

theorem witness_ReadsReturnTheRegisters :
    State.reset.rst = false ∧ State.reset.status.busy = false ∧ (running State.reset 5#32 none).rst = false ∧
      (0x074#9 : BitVec 9).toNat < 0x080 ∧
      ({ State.reset with events := [.port 0x0BC#9 .read] } : State).events = .port 0x0BC#9 .read :: [] ∧
      ((0x0BC#9 : BitVec 9).toNat, State.reset.code.toNat) = (0x0BC, 0) := ⟨rfl, rfl, rfl, by decide, rfl, rfl⟩

/-- Each case of the idempotence clause: idle, held in reset, and busy at offsets that are no result register's: below and
above their range, reserved within it, and misaligned. -/
theorem witness_ReadsHaveNoSideEffect :
    ({ State.reset with events := [.port 0x0BC#9 .read, .port 0x0BC#9 .read] } : State).events =
      .port 0x0BC#9 .read :: [.port 0x0BC#9 .read] ∧
    State.reset.status.busy = false ∧ ({ State.reset with rst := true } : State).rst = true ∧
    (running State.reset 5#32 none).status.busy = true ∧
    ∀ off ∈ [0x07C#9, 0x081#9, 0x098#9, 0x09C#9, 0x0BD#9, 0x0C0#9, 0x0FC#9, 0x100#9], ¬ (off.toNat % 4 = 0 ∧
      ((0x080 ≤ off.toNat ∧ off.toNat ≤ 0x094) ∨ (0x0A0 ≤ off.toNat ∧ off.toNat ≤ 0x0BC))) :=
  ⟨rfl, rfl, rfl, rfl, by decide⟩

/-- The boundaries of both ranges, and the offset of each clause on the value: 0x080 and 0x0B0 for the full words, 0x0B4,
0x0B8 and 0x0BC. -/
theorem witness_BusyReadsOfResultsAreUnspecified :
    (running State.reset 5#32 none).rst = false ∧ (running State.reset 5#32 none).status.busy = true ∧
    (∀ off ∈ [0x080#9, 0x094#9, 0x0A0#9, 0x0B0#9, 0x0B4#9, 0x0B8#9, 0x0BC#9], off.toNat % 4 = 0 ∧
      ((0x080 ≤ off.toNat ∧ off.toNat ≤ 0x094) ∨ (0x0A0 ≤ off.toNat ∧ off.toNat ≤ 0x0BC))) ∧
    (0x080#9 : BitVec 9).toNat < 0x0B4 ∧ (0x0B0#9 : BitVec 9).toNat < 0x0B4 := by decide

theorem witness_RegisterWritesStoreTheKeptBits :
    State.reset.rst = false ∧ State.reset.status.busy = false ∧
    (∀ off v, ({ State.reset with events := [.port off (.write v)] } : State).events = .port off (.write v) :: []) ∧
    ∀ off ∈ [0x008#9, 0x020#9, 0x024#9, 0x028#9, 0x02C#9, 0x030#9, 0x060#9, 0x064#9, 0x068#9, 0x06C#9, 0x070#9],
      off.toNat ∈ [0x008, 0x020, 0x024, 0x028, 0x02C, 0x030, 0x060, 0x064, 0x068, 0x06C, 0x070] :=
  ⟨rfl, rfl, fun _ _ => rfl, by decide⟩

theorem witness_InbufWordIsLittleEndian :
    State.reset.rst = false ∧ State.reset.status.busy = false ∧ State.reset.inbuf.wf = true ∧ 63 < 64 :=
  ⟨rfl, rfl, Memory.atReset_wf 0, by decide⟩

theorem witness_InbufReadsReturnTheBytes :
    (withBytes textFoob).rst = false ∧ (withBytes textFoob).inbuf.read? 0x100 = some 0x4D#8 ∧
    (withBytes textFoob).inbuf.read? 0x101 = some 0x5A#8 ∧ (withBytes textFoob).inbuf.read? 0x102 = some 0x58#8 ∧
    (withBytes textFoob).inbuf.read? 0x103 = some 0x57#8 := by decide +kernel

theorem witness_MisalignedAccessIsAnError :
    State.reset.rst = false ∧ (0x001#9 : BitVec 9).toNat % 4 ≠ 0 ∧ (0x1FF#9 : BitVec 9).toNat % 4 ≠ 0 ∧
    (0x1FC#9 : BitVec 9).toNat % 4 = 0 := by decide

/-- Both boundaries of each of the six ranges. -/
theorem witness_ReservedOffsetsReadZero :
    State.reset.rst = false ∧
    ∀ off ∈ [0x018#9, 0x01C#9, 0x034#9, 0x03C#9, 0x054#9, 0x05C#9, 0x078#9, 0x07C#9, 0x098#9, 0x09C#9, 0x0C0#9, 0x0FC#9],
      off.toNat % 4 = 0 ∧
      ((0x018 ≤ off.toNat ∧ off.toNat ≤ 0x01C) ∨ (0x034 ≤ off.toNat ∧ off.toNat ≤ 0x03C) ∨
        (0x054 ≤ off.toNat ∧ off.toNat ≤ 0x05C) ∨ (0x078 ≤ off.toNat ∧ off.toNat ≤ 0x07C) ∨
        (0x098 ≤ off.toNat ∧ off.toNat ≤ 0x09C) ∨ (0x0C0 ≤ off.toNat ∧ off.toNat ≤ 0x0FC)) := by decide

/-- The boundaries of each range, and the two single offsets. -/
theorem witness_ReadOnlyRegistersIgnoreWrites :
    State.reset.rst = false ∧
    ∀ off ∈ [0x000#9, 0x004#9, 0x014#9, 0x040#9, 0x050#9, 0x074#9, 0x080#9, 0x094#9, 0x0A0#9, 0x0BC#9],
      off.toNat % 4 = 0 ∧
      (off.toNat ≤ 0x004 ∨ off.toNat = 0x014 ∨ (0x040 ≤ off.toNat ∧ off.toNat ≤ 0x050) ∨ off.toNat = 0x074 ∨
        (0x080 ≤ off.toNat ∧ off.toNat ≤ 0x094) ∨ (0x0A0 ≤ off.toNat ∧ off.toNat ≤ 0x0BC)) := by decide

theorem witness_StatusWriteClearsDoneAndOverrun :
    ({ State.reset with events := [.port 0x00C#9 (.write 0x12#32)] } : State).events =
      .port 0x00C#9 (.write 0x12#32) :: [] ∧ State.reset.rst = false := ⟨rfl, rfl⟩

/-- The boundaries of each range of dropped offsets; CTRL and STATUS; and offsets next to the ranges that are not
dropped. -/
theorem witness_InputWritesAreDroppedWhileBusy :
    (running State.reset 5#32 none).rst = false ∧ (running State.reset 5#32 none).status.busy = true ∧
    (∀ off ∈ [0x010#9, 0x020#9, 0x030#9, 0x060#9, 0x070#9, 0x100#9, 0x1FC#9], off.toNat % 4 = 0 ∧
      (off.toNat = 0x010 ∨ (0x020 ≤ off.toNat ∧ off.toNat ≤ 0x030) ∨ (0x060 ≤ off.toNat ∧ off.toNat ≤ 0x070) ∨
        0x100 ≤ off.toNat)) ∧
    ({ running State.reset 5#32 none with events := [.port 0x008#9 (.write 1#32)] } : State).events =
      .port 0x008#9 (.write 1#32) :: [] ∧
    ({ running State.reset 5#32 none with events := [.port 0x00C#9 (.write 0x10#32)] } : State).events =
      .port 0x00C#9 (.write 0x10#32) :: [] ∧
    ∀ off ∈ [0x000#9, 0x004#9, 0x014#9, 0x01C#9, 0x034#9, 0x05C#9, 0x074#9, 0x0FC#9], off.toNat % 4 = 0 ∧
      off.toNat ∉ [0x008, 0x00C, 0x010] ∧ ¬ (0x020 ≤ off.toNat ∧ off.toNat ≤ 0x030) ∧
      ¬ (0x060 ≤ off.toNat ∧ off.toNat ≤ 0x070) ∧ off.toNat < 0x100 := by decide

/-- OVR set, and a write of 1 to bit 4 of STATUS. -/
theorem witness_OverrunIsSticky :
    ∃ s t : State, step s = .next t ∧ s.status.ovr = true ∧ t.status.ovr = false :=
  ⟨{ State.reset.dropWrite with events := [.port 0x00C#9 (.write 0x10#32)] }, _, rfl, rfl, rfl⟩

/-- `irq` falling by a write of IE = 0, and rising by a completion. -/
theorem witness_InterruptFollowsDoneAndEnable :
    (∃ s t : State, step s = .next t ∧ s.irq = true ∧ t.irq = false) ∧
    (∃ s t : State, step s = .next t ∧ s.irq = false ∧ t.irq = true) :=
  ⟨⟨{ State.reset with
        ctrl := { ie := true, tsrc := false }, status := State.reset.status.completed true
        events := [.port 0x008#9 (.write 0#32)] }, _, rfl, rfl, rfl⟩,
    ⟨{ running State.reset 2#32 none with ctrl := { ie := true, tsrc := false } }, _, rfl, rfl, rfl⟩⟩

theorem witness_WindowIsDecodedAtItsBase :
    (∃ off : BitVec 9, Config.otpBase + 0x1FF = Config.otpBase + off.toNat) ∧
    Config.otpBase + 0x200 ≤ Config.otpBase + 0x200 := ⟨⟨0x1FF#9, rfl⟩, Nat.le_refl _⟩

theorem witness_ResetReplacesTheWholeState :
    ({ keyed with events := [.rst true] } : State).events = .rst true :: [] ∧
    ({ State.reset with rst := true, events := [.port 0x000#9 .read] } : State).rst = true ∧
    ({ State.reset with rst := true, events := [.rst false] } : State).heldInReset := ⟨rfl, rfl, rfl⟩

/-- The reset state with other flags, a pending command and a schedule meets the invariant if these three agree. -/
theorem inv_resetWith (st : Status) (p : Option Pending) (ev : List Event) (hb : st.busy = p.isSome)
    (hf : st.busy = true → st.done = false ∧ st.valid = false ∧ st.err = false) (he : st.err = false)
    (hd : st.done = true → st.valid = true)
    (hp : ∀ q, p = some q → (q.sample.isSome = true ↔ decode q.word = .time ∨ decode q.word = .totp)) :
    ({ State.reset with status := st, pend := p, events := ev } : State).Inv where
  memory := Memory.atReset_wf 0
  active := by
    show OtpConfig.default.Valid
    unfold OtpConfig.Valid
    decide
  busy_pending := hb
  busy_flags := hf
  one_report := by simp [he]
  done_report := fun h => by simp [hd h]
  no_report := fun _ => rfl
  report := fun h => by simp [he] at h
  sample := hp
  key_size := List.length_replicate
  key_len := by
    show State.reset.keyLen.toNat ≤ 160
    decide
  key_fill := by
    show State.reset.key.drop State.reset.keyLen.toNat = List.replicate (160 - State.reset.keyLen.toNat) 0#8
    decide
  no_key := fun _ => ⟨rfl, rfl, rfl, rfl, rfl⟩
  offset_digest := by
    show State.reset.offset = State.reset.digest.h4.extractLsb' 0 4
    decide
  trunc_digest := by
    show State.reset.trunc = trunc31 State.reset.digest.bytes State.reset.offset.toNat
    decide
  code_bound := by
    show State.reset.code.toNat < 10 ^ 9 ∧ State.reset.code.toNat ≤ State.reset.trunc.toNat
    decide
  held := fun h => by cases h

/-- The reset state with CFG_DEFAULT pending, which the next step completes. -/
def defaultPending : State :=
  { State.reset with
    status := { busy := true, done := false, valid := false, err := false, ovr := false, keyValid := false }
    pend := some { word := 2#32, sample := none }
    events := [] }

theorem defaultPending_inv : defaultPending.Inv :=
  inv_resetWith _ _ [] rfl (fun _ => ⟨rfl, rfl, rfl⟩) rfl (fun h => by cases h)
    (fun q h => by injection h with h; subst h; decide)

theorem witness_EveryStepKeepsTheInvariant : ∃ s t : State, s.Inv ∧ step s = .next t :=
  ⟨defaultPending, _, defaultPending_inv, rfl⟩

/-- A command completing, and a finished one still reported one step later. -/
theorem witness_OneOutcomeStaysReported :
    (∃ s t : State, s.Inv ∧ step s = .next t ∧ s.resetting = false ∧ s.status.busy = true ∧ t.status.busy = false) ∧
    (∃ s t : State, s.Inv ∧ step s = .next t ∧ s.resetting = false ∧ s.status.busy = false ∧
      s.status.valid ≠ s.status.err) :=
  ⟨⟨defaultPending, _, defaultPending_inv, rfl, rfl, rfl, rfl⟩,
    ⟨{ State.reset with
        status := { busy := false, done := true, valid := true, err := false, ovr := false, keyValid := false }
        pend := none, events := [.idle] }, _,
      inv_resetWith _ none [.idle] rfl (fun h => by cases h) rfl (fun _ => rfl) (fun q h => by cases h),
      rfl, rfl, rfl, by decide⟩⟩

theorem witness_KeyBytesAreNeverReadBack :
    defaultPending.completing ≠ some .hotp ∧ defaultPending.completing ≠ some .totp ∧
      ∃ t, step defaultPending = .next t := ⟨by decide, by decide, _, rfl⟩

end Sys2Proof.Tests
end

section
/-! PROOFS. What a completed command leaves: the frame of the eight commands, their flags, and that they compute their
results afresh (10_state.md R26 to R31, R54). -/

namespace Sys2Proof.Machine

/-! ### The frame of a command -/

/-- What command `i` leaves of `s` in `t`; STATUS, ERR and PEND, which completion writes, are not among it (R54). -/
structure CommandFrame (i : Instr) (s t : State) : Prop where
  ctrl : t.ctrl = s.ctrl
  now : t.now = s.now
  counter : t.counter = s.counter
  textLen : t.textLen = s.textLen
  inbuf : t.inbuf = s.inbuf
  rst : t.rst = s.rst
  timeValid : t.timeValid = s.timeValid
  timeIn : t.timeIn = s.timeIn
  resp : t.resp = s.resp
  events : t.events = s.events
  draws : t.draws = s.draws
  cfg : i ≠ .cfgDefault → t.cfg = s.cfg
  act : i ≠ .cfgCommit → i ≠ .cfgDefault → t.act = s.act
  key : i ≠ .keyB32 → i ≠ .keyRaw → t.key = s.key ∧ t.keyLen = s.keyLen
  hotp : i ≠ .hotp → i ≠ .totp → t.digest = s.digest ∧ t.offset = s.offset ∧ t.trunc = s.trunc ∧ t.code = s.code
  time : i ≠ .time → i ≠ .totp → t.tsamp = s.tsamp ∧ t.stepReg = s.stepReg ∧ t.remain = s.remain

/-- The writes of a successful command stay within its registers. -/
theorem commandWrites_frame {i : Instr} {s u : State} (h : commandWrites i s = .ok u) : CommandFrame i s u := by
  rcases commandWrites_ok h with ⟨rfl, -, rfl⟩ | ⟨rfl, rfl⟩ | ⟨rfl, k, -, rfl⟩ | ⟨rfl, -, rfl⟩ | ⟨rfl, -, rfl⟩ |
    ⟨rfl, x, -, rfl⟩ | ⟨rfl, -, x, -, rfl⟩ <;> constructor <;> simp

/-- Completion adds to the frame of a command nothing but STATUS, ERR and PEND. -/
theorem exec_frame {i : Instr} {s t : State} (h : exec i s = .next t) : CommandFrame i s t := by
  rcases exec_cases h with ⟨u, hu, rfl⟩ | ⟨e, -, rfl⟩
  · exact { commandWrites_frame hu with }
  · constructor <;> intros <;> simp [State.endsInError]

/-! ### The flags of a completion -/

/-- Of STATUS the writes of a command touch KEY_VALID alone, which a key command sets (R31). -/
theorem commandWrites_status {i : Instr} {s u : State} (h : commandWrites i s = .ok u) :
    u.status = { s.status with keyValid := s.status.keyValid || decide (i = .keyB32 ∨ i = .keyRaw) } := by
  rcases commandWrites_ok h with ⟨rfl, -, rfl⟩ | ⟨rfl, rfl⟩ | ⟨rfl, k, -, rfl⟩ | ⟨rfl, -, rfl⟩ | ⟨rfl, -, rfl⟩ |
    ⟨rfl, x, -, rfl⟩ | ⟨rfl, -, x, -, rfl⟩ <;> simp

/-- STATUS after a completion: VALID says whether the command succeeded (R26 to R31). -/
theorem exec_status {i : Instr} {s t : State} (h : exec i s = .next t) :
    t.status = { s.status.completed t.status.valid with
      keyValid := s.status.keyValid || (decide (i = .keyB32 ∨ i = .keyRaw) && t.status.valid) } := by
  rcases exec_cases h with ⟨u, hu, rfl⟩ | ⟨e, -, rfl⟩
  · simp [State.endsWell, commandWrites_status hu, Status.completed]
  · simp [State.endsInError, Status.completed]

/-- A completion leaves no command pending (R45). -/
theorem exec_pend {i : Instr} {s t : State} (h : exec i s = .next t) : t.pend = none := by
  rcases exec_cases h with ⟨u, -, rfl⟩ | ⟨e, -, rfl⟩ <;> rfl

/-- A completion without an error leaves ERR clear (R33; log 14). -/
theorem exec_err_clear {i : Instr} {s t : State} (h : exec i s = .next t) (he : t.status.err = false) :
    t.err = ErrReg.clear := by
  rcases exec_cases h with ⟨u, -, rfl⟩ | ⟨e, -, rfl⟩
  · rfl
  · cases he

/-! ### Commands compute their results afresh -/

/-- Two outcomes of command `i` with the same STATUS, configurations and key, and the same results of `i`'s own. -/
structure AgreeOnWrites (i : Instr) (u u' : State) : Prop where
  status : u'.status = u.status
  cfg : u'.cfg = u.cfg
  act : u'.act = u.act
  key : u'.key = u.key
  keyLen : u'.keyLen = u.keyLen
  time : i = .time ∨ i = .totp → u'.tsamp = u.tsamp ∧ u'.stepReg = u.stepReg ∧ u'.remain = u.remain
  hotp : i = .hotp ∨ i = .totp →
    u'.digest = u.digest ∧ u'.offset = u.offset ∧ u'.trunc = u.trunc ∧ u'.code = u.code

/-- `s` with other values in its result registers (R42 to R44). -/
def State.withResults (s : State) (ts st rm : DWord) (d : Digest) (o : BitVec 4) (p : BitVec 31) (c : Word) : State :=
  { s with tsamp := ts, stepReg := st, remain := rm, digest := d, offset := o, trunc := p, code := c }

section
variable (s : State) (ts st rm : DWord) (d : Digest) (o : BitVec 4) (p : BitVec 31) (c : Word)

@[simp] theorem State.withResults_status : (s.withResults ts st rm d o p c).status = s.status := rfl
@[simp] theorem State.withResults_cfg : (s.withResults ts st rm d o p c).cfg = s.cfg := rfl
@[simp] theorem State.withResults_act : (s.withResults ts st rm d o p c).act = s.act := rfl
@[simp] theorem State.withResults_counter : (s.withResults ts st rm d o p c).counter = s.counter := rfl
@[simp] theorem State.withResults_key : (s.withResults ts st rm d o p c).key = s.key := rfl
@[simp] theorem State.withResults_keyLen : (s.withResults ts st rm d o p c).keyLen = s.keyLen := rfl
@[simp] theorem State.withResults_textLen : (s.withResults ts st rm d o p c).textLen = s.textLen := rfl
@[simp] theorem State.withResults_text : (s.withResults ts st rm d o p c).text = s.text := rfl
@[simp] theorem State.withResults_keyBytes : (s.withResults ts st rm d o p c).keyBytes = s.keyBytes := rfl
@[simp] theorem State.withResults_commandSample :
    (s.withResults ts st rm d o p c).commandSample = s.commandSample := rfl

end

/-- A command reads no result register: it raises the same error, or writes the same values (R54). -/
theorem commandWrites_withResults (i : Instr) (s : State) (ts st rm : DWord) (d : Digest) (o : BitVec 4)
    (p : BitVec 31) (c : Word) :
    (∃ e, commandWrites i s = .error e ∧ commandWrites i (s.withResults ts st rm d o p c) = .error e) ∨
      ∃ u u', commandWrites i s = .ok u ∧ commandWrites i (s.withResults ts st rm d o p c) = .ok u' ∧
        AgreeOnWrites i u u' := by
  cases i with
  | cfgCommit =>
    simp only [commandWrites, commitConfig, State.withResults_cfg]
    cases s.cfg.firstError with
    | some e => exact .inl ⟨e, rfl, rfl⟩
    | none => exact .inr ⟨_, _, rfl, rfl, by constructor <;> simp⟩
  | cfgDefault => exact .inr ⟨_, _, rfl, rfl, by constructor <;> simp⟩
  | keyB32 =>
    simp only [commandWrites, keyFromBase32, State.withResults_text]
    cases base32Decode s.text with
    | error e => exact .inl ⟨e, rfl, rfl⟩
    | ok k => exact .inr ⟨_, _, rfl, rfl, by constructor <;> simp⟩
  | keyRaw =>
    simp only [commandWrites, keyFromRaw, State.withResults_text, State.withResults_textLen]
    by_cases hl : s.textLen.toNat > Config.keyCap
    · simp only [hl, ↓reduceIte]
      exact .inl ⟨_, rfl, rfl⟩
    · simp only [hl, ↓reduceIte]
      exact .inr ⟨_, _, rfl, rfl, by constructor <;> simp⟩
  | hotp =>
    simp only [commandWrites, hotpFromCounter, State.withResults_status]
    by_cases hk : s.status.keyValid = true
    · simp only [hk, ↓reduceIte]
      exact .inr ⟨_, _, rfl, rfl, by constructor <;> simp⟩
    · simp only [hk]
      exact .inl ⟨_, rfl, rfl⟩
  | time =>
    simp only [commandWrites, timeFromSample, State.withResults_commandSample, State.withResults_act]
    cases checkSample s.commandSample s.act.start with
    | error e => exact .inl ⟨e, rfl, rfl⟩
    | ok t => exact .inr ⟨_, _, rfl, rfl, by constructor <;> simp⟩
  | totp =>
    simp only [commandWrites, totpFromSample, State.withResults_commandSample, State.withResults_act,
      State.withResults_status]
    cases checkSample s.commandSample s.act.start with
    | error e => exact .inl ⟨e, rfl, rfl⟩
    | ok t =>
      by_cases hk : s.status.keyValid = true
      · simp only [hk, ↓reduceIte]
        exact .inr ⟨_, _, rfl, rfl, by constructor <;> simp⟩
      · simp only [hk]
        exact .inl ⟨_, rfl, rfl⟩
  | illegal op rsvd => exact .inl ⟨_, rfl, rfl⟩

end Sys2Proof.Machine

namespace Sys2Proof.Proofs

open Sys2Proof.Machine

/-- Settles O15: the frame of the commands, read off `exec_frame`. -/
theorem commandsWriteOnlyTheirRegisters : Obligations.CommandsWriteOnlyTheirRegisters := by
  intro i s t h
  have f := exec_frame h
  refine ⟨⟨f.ctrl, f.now, f.counter, f.textLen, fun a => by rw [f.inbuf], f.rst, f.timeValid, f.timeIn, f.resp,
    f.events, f.draws⟩, f.cfg, f.act, fun h3 h4 => ⟨(f.key h3 h4).1, (f.key h3 h4).2, ?_⟩, f.hotp, f.time⟩
  rw [exec_status h]
  simp [h3, h4]

/-- Settles O14: STATUS of a completion is `exec_status`; ERR, PEND and `irq` have lemmas of their own. -/
theorem completionSetsTheFlags : Obligations.CompletionSetsTheFlags := by
  intro i s t h
  have hst := exec_status h
  have hdone : t.status.done = true := by rw [hst]; rfl
  refine ⟨by rw [hst]; rfl, exec_pend h, hdone, ?_, fun he => by rw [exec_err_clear h he]; rfl, by rw [hst]; rfl,
    ?_, ?_⟩
  · rw [hst]
    simp [Status.completed]
  · rw [hst]
    simp [Status.completed]
  · simp [State.irq, hdone, (exec_frame h).ctrl]

/-- Settles O16: both runs raise the same error, or complete with agreeing writes (`commandWrites_withResults`). -/
theorem resultsAreComputedFresh : Obligations.ResultsAreComputedFresh := by
  intro i s ts st rm d o p c
  refine ⟨_, _, exec_eq i s, exec_eq i (s.withResults ts st rm d o p c), ?_⟩
  rcases commandWrites_withResults i s ts st rm d o p c with ⟨e, h, h'⟩ | ⟨u, u', h, h', a⟩
  · rw [h, h']
    exact ⟨rfl, rfl, rfl, rfl, rfl, rfl, nofun, nofun⟩
  · rw [h, h']
    exact ⟨congrArg (Status.completed · true) a.status, rfl, a.cfg, a.act, a.key, a.keyLen, fun _ => a.time,
      fun _ => a.hotp⟩

end Sys2Proof.Proofs
end

section
/-! PROOFS. What one access and one step of the block do: reads and writes of the registers and of INBUF (10_state.md
R21 to R46), the completion of the pending command (R45), the steps that are no access, and what every step keeps of the
reported outcome. -/

namespace Sys2Proof.Machine

/-! ### Arithmetic of the fields -/

/-- A bit string above another, as a number. -/
theorem append_toNat_add {m n : Nat} (x : BitVec m) (y : BitVec n) : (x ++ y).toNat = x.toNat * 2 ^ n + y.toNat := by
  rw [BitVec.toNat_append, Nat.shiftLeft_eq, Nat.mul_comm, Nat.two_pow_add_eq_or_of_lt y.isLt]

/-- A flag with write-one-to-clear at bit `i` (R25). -/
theorem and_not_getLsbD (b : Bool) (v : Word) (i : Nat) :
    (b && !v.getLsbD i) = if v.toNat / 2 ^ i % 2 = 1 then false else b := by
  rw [← BitVec.testBit_toNat, Nat.testBit_eq_decide_div_mod_eq]
  split <;> simp_all

/-! ### Registers and their offsets -/

/-- The value of a register as a number (R22 to R44). -/
def Reg.number (r : Reg) (s : State) : Nat :=
  match r with
  | .id => 0x4F545031
  | .param => 0x00A00100
  | .ctrl => 2 * s.ctrl.tsrc.toNat + s.ctrl.ie.toNat
  | .status => 32 * s.status.keyValid.toNat + 16 * s.status.ovr.toNat + 8 * s.status.err.toNat +
      4 * s.status.valid.toNat + 2 * s.status.done.toNat + s.status.busy.toNat
  | .cmd => 0
  | .err => s.err.op.toNat * 2 ^ 16 + s.err.detail.toNat * 2 ^ 8 + s.err.code.toNat
  | .cfgStartLo => s.cfg.start.toNat % 2 ^ 32
  | .cfgStartHi => s.cfg.start.toNat / 2 ^ 32
  | .cfgStepLo => s.cfg.step.toNat % 2 ^ 32
  | .cfgStepHi => s.cfg.step.toNat / 2 ^ 32
  | .cfgWidth => s.cfg.width.toNat
  | .actStartLo => s.act.start.toNat % 2 ^ 32
  | .actStartHi => s.act.start.toNat / 2 ^ 32
  | .actStepLo => s.act.step.toNat % 2 ^ 32
  | .actStepHi => s.act.step.toNat / 2 ^ 32
  | .actWidth => s.act.width.toNat
  | .nowLo => s.now.toNat % 2 ^ 32
  | .nowHi => s.now.toNat / 2 ^ 32
  | .counterLo => s.counter.toNat % 2 ^ 32
  | .counterHi => s.counter.toNat / 2 ^ 32
  | .textLen => s.textLen.toNat
  | .keyLen => s.keyLen.toNat
  | .tsampLo => s.tsamp.toNat % 2 ^ 32
  | .tsampHi => s.tsamp.toNat / 2 ^ 32
  | .stepLo => s.stepReg.toNat % 2 ^ 32
  | .stepHi => s.stepReg.toNat / 2 ^ 32
  | .remainLo => s.remain.toNat % 2 ^ 32
  | .remainHi => s.remain.toNat / 2 ^ 32
  | .digest0 => s.digest.h0.toNat
  | .digest1 => s.digest.h1.toNat
  | .digest2 => s.digest.h2.toNat
  | .digest3 => s.digest.h3.toNat
  | .digest4 => s.digest.h4.toNat
  | .offset => s.offset.toNat
  | .trunc => s.trunc.toNat
  | .code => s.code.toNat

/-- A register reads as its number. -/
theorem Reg.value_eq (r : Reg) (s : State) : r.value s = BitVec.ofNat 32 (r.number s) := by
  cases r with
  | id | param | cmd => rfl
  | ctrl => exact s.ctrl.word_eq
  | status => exact s.status.word_eq
  | err => exact s.err.word_eq
  | cfgStartLo | cfgStepLo | actStartLo | actStepLo | nowLo | counterLo | tsampLo | stepLo | remainLo =>
    exact loHalf_eq _
  | cfgStartHi | cfgStepHi | actStartHi | actStepHi | nowHi | counterHi | tsampHi | stepHi | remainHi =>
    exact hiHalf_eq _
  | cfgWidth | actWidth | textLen | keyLen | offset | trunc => exact zeroExtend_eq _
  | digest0 | digest1 | digest2 | digest3 | digest4 | code =>
    exact ((BitVec.ofNat_toNat ..).trans (BitVec.setWidth_eq _)).symm

/-- Each entry of the register map is what its offset names, and the result registers start at 0x080 (R21). -/
theorem target_of_mem_registerMap {off : BitVec 9} {r : Reg} (h : (off.toNat, r) ∈ registerMap) :
    target off = .reg r ∧ (off.toNat < 0x080 → r.resultMask = none) := by
  have all : ∀ e ∈ registerMap, target (BitVec.ofNat 9 e.1) = .reg e.2 ∧ (e.1 < 0x080 → e.2.resultMask = none) := by
    decide
  simpa using all _ h

/-! ### Accesses -/

/-- Beginning a step moves no register. -/
theorem Reg.value_begin (r : Reg) (s : State) (rest : List Event) : r.value (s.begin rest) = r.value s := by
  cases r <;> rfl

/-- The step that reads a register returns its value and changes nothing, but for a result register while BUSY. -/
theorem step_readReg {s : State} {off : BitVec 9} {r : Reg} {rest : List Event} (hr : s.rst = false)
    (he : s.events = .port off .read :: rest) (ht : target off = .reg r)
    (hv : s.status.busy = false ∨ r.resultMask = none) :
    step s = .next { s with events := rest, resp := some { data := r.value s, error := false } } := by
  rw [step_read hr he, State.busRead, ht]
  dsimp only
  rw [readReg_value (by exact hv), Reg.value_begin]
  rfl

/-- The step that writes a register. -/
theorem step_writeReg {s : State} {off : BitVec 9} {r : Reg} {v : Word} {rest : List Event} (hr : s.rst = false)
    (he : s.events = .port off (.write v) :: rest) (ht : target off = .reg r) :
    step s = .next (((s.begin rest).writeReg r v).respond 0#32 false) := by
  rw [step_write hr he, State.busWrite, ht]

/-- A write is stored while no command runs, and to a register that is never frozen (R296). -/
theorem writeReg_stored {s : State} {r : Reg} (v : Word) (h : s.status.busy = false ∨ r.frozenWhileBusy = false) :
    s.writeReg r v = s.storeReg r v := by
  rcases h with h | h <;> simp [State.writeReg, h]

/-- A write to a frozen register while a command runs is dropped (R296). -/
theorem writeReg_dropped {s : State} {r : Reg} (v : Word) (hb : s.status.busy = true) (hf : r.frozenWhileBusy = true) :
    s.writeReg r v = s.dropWrite := by
  simp [State.writeReg, hb, hf]

/-- The step whose write to a register is stored. -/
theorem step_storeReg {s : State} {off : BitVec 9} {r : Reg} {v : Word} {rest : List Event} (hr : s.rst = false)
    (he : s.events = .port off (.write v) :: rest) (ht : target off = .reg r)
    (hs : s.status.busy = false ∨ r.frozenWhileBusy = false) :
    step s = .next (((s.begin rest).storeReg r v).respond 0#32 false) := by
  rw [step_writeReg hr he ht, writeReg_stored v (by exact hs)]

/-- A 64-bit register after a write at `off`, its `_LO` register at offset `lo` and its `_HI` register at `hi` (R76). -/
def halfWritten (off lo hi : BitVec 9) (x : DWord) (v : Word) : DWord :=
  if off = lo then setLoHalf x v else if off = hi then setHiHalf x v else x

theorem halfWritten_toNat (off lo hi : BitVec 9) (x : DWord) (v : Word) :
    (halfWritten off lo hi x v).toNat =
      if off = lo then x.toNat / 2 ^ 32 * 2 ^ 32 + v.toNat
      else if off = hi then v.toNat * 2 ^ 32 + x.toNat % 2 ^ 32 else x.toNat := by
  rw [halfWritten, apply_ite BitVec.toNat, apply_ite BitVec.toNat, setLoHalf_toNat, setHiHalf_toNat]

/-- A narrow register after a write at `off`: the low bits of the data at its own offset, else what it was. -/
theorem ite_extractLsb'_toNat {n : Nat} (c : Prop) [Decidable c] (v : Word) (x : BitVec n) :
    (if c then v.extractLsb' 0 n else x).toNat = if c then v.toNat % 2 ^ n else x.toNat := by
  rw [apply_ite BitVec.toNat, BitVec.extractLsb'_toNat, Nat.shiftRight_zero]

/-- The word INBUFj as a number, from its four bytes (R46, R75). -/
theorem inbufWord_eq {m : Memory} {j : Nat} {b0 b1 b2 b3 : Byte} (h0 : m.read? (0x100 + 4 * j) = some b0)
    (h1 : m.read? (0x100 + 4 * j + 1) = some b1) (h2 : m.read? (0x100 + 4 * j + 2) = some b2)
    (h3 : m.read? (0x100 + 4 * j + 3) = some b3) :
    inbufWord m j = BitVec.ofNat 32 (b3.toNat * 2 ^ 24 + b2.toNat * 2 ^ 16 + b1.toNat * 2 ^ 8 + b0.toNat) := by
  have hbyte : ∀ {i : Nat} {b : Byte}, m.read? (0x100 + i) = some b → inbufByte m i = b := fun h => by
    simp [inbufByte, Memory.byte, inbufAddr, Config.inbufBase, h]
  rw [Nat.add_assoc] at h1 h2 h3
  rw [inbufWord, hbyte h0, hbyte h1, hbyte h2, hbyte h3]
  apply BitVec.eq_of_toNat_eq
  rw [append_toNat_add, append_toNat_add, append_toNat_add, BitVec.toNat_ofNat]
  have := b0.isLt
  have := b1.isLt
  have := b2.isLt
  have := b3.isLt
  omega

/-! ### Acceptance and placing -/

/-- The commands that sample the time (R45, R210). -/
theorem takesSample_iff (i : Instr) : takesSample i = true ↔ i = .time ∨ i = .totp := by
  cases i <;> simp [takesSample]

/-- The sample an acceptance takes (R45, R210; log 15). -/
theorem acceptSample_eq (s : State) (w : Word) :
    s.acceptSample w = if decode w = .time ∨ decode w = .totp then some s.sampleNow else none := by
  simp only [State.acceptSample, takesSample_iff]
  rfl

/-- Placing a whole 32-bit word drops none of its bits. -/
theorem withFetchWord_word (s : State) (w : Word) : s.withFetchWord 32 w.toNat = s.placeCommand w := by
  rw [State.withFetchWord, Nat.mod_eq_of_lt (by exact w.isLt), BitVec.ofNat_toNat, BitVec.setWidth_eq]

/-! ### Every step answers -/

/-- Completing the pending command always answers a next state. -/
theorem runPending_next (s : State) : ∃ t, runPending s = .next t := by
  unfold runPending
  split
  · exact ⟨_, rfl⟩
  · split
    · exact ⟨_, rfl⟩
    · exact ⟨_, exec_eq _ _⟩

/-- Every event but a power-down answers a next state. -/
theorem runEvent_next {e : Event} (he : e ≠ .powerDown) (s : State) : ∃ t, runEvent e s = .next t := by
  cases e with
  | port off x => exact ⟨_, rfl⟩
  | platform addr x => exact ⟨_, rfl⟩
  | timePort v x => exact ⟨_, rfl⟩
  | rst level => cases level <;> exact ⟨_, rfl⟩
  | complete => exact runPending_next s
  | idle => exact ⟨_, rfl⟩
  | powerDown => exact absurd rfl he

/-- The step at an event of the schedule. -/
theorem step_event {s : State} {e : Event} {rest : List Event} (h : s.events = e :: rest) :
    step s = runEvent e (s.begin rest) := by
  simp [step, runNext, h]

/-- The step on an empty schedule. -/
theorem step_noEvent {s : State} (h : s.events = []) : step s = runPending (s.begin []) := by
  simp [step, runNext, h]

/-! ### What steps keep -/

/-- Only a pending command completes. -/
theorem pend_of_completing {s : State} {i : Instr} (h : s.completing = some i) : s.pend.isSome = true := by
  unfold State.completing at h
  split at h
  · cases h
  · split at h
    · simpa using congrArg Option.isSome h
    · simpa using congrArg Option.isSome h
    · cases h

/-- A transfer leaves OVR set, but for a write of 1 to STATUS bit 4 (R30). -/
theorem TransferEffect.ovr {s u : State} {off : BitVec 9} {x : Transfer} (h : TransferEffect s off x u)
    (hs : s.status.ovr = true) :
    u.status.ovr = true ∨ ∃ v : Word, off = 0x00C#9 ∧ x = .write v ∧ v.getLsbD 4 = true := by
  cases h with
  | status v hr ho =>
    cases hv : v.getLsbD 4 with
    | true => exact .inr ⟨v, ho, rfl, hv⟩
    | false => exact .inl (show (s.status.ovr && !v.getLsbD 4) = true by rw [hs, hv]; rfl)
  | drop v hr hb => exact .inl rfl
  | _ => exact .inl hs

/-- BUSY and the reported outcome, VALID, ERR and the ERR register, are in `t` what they are in `s` (R28, R29, R33). -/
def SameReport (s t : State) : Prop :=
  t.status.busy = s.status.busy ∧ t.status.valid = s.status.valid ∧ t.status.err = s.status.err ∧ t.err = s.err

/-- A transfer is an acceptance, after which a command runs, or leaves BUSY and the reported outcome (R28, R29). -/
theorem TransferEffect.report {s u : State} {off : BitVec 9} {x : Transfer} (h : TransferEffect s off x u) :
    (s.status.busy = false ∧ u.status.busy = true) ∨ SameReport s u := by
  cases h with
  | accept v hr ho hb => exact .inl ⟨hb, rfl⟩
  | _ => exact .inr ⟨rfl, rfl, rfl, rfl⟩

/-- What a step that asserts no reset does to BUSY and to the reported outcome: it completes a command, accepts one, or
leaves them. -/
theorem step_report {s t : State} (h : step s = .next t) (hr : s.resetting = false) :
    (s.pend.isSome = true ∧ t.status.busy = false ∧ t.status.valid = !t.status.err ∧ t.status.done = true) ∨
    (s.status.busy = false ∧ t.status.busy = true) ∨ SameReport s t := by
  cases step_cases h with
  | completion i t hc hx =>
    have hst := exec_status hx
    exact .inl ⟨pend_of_completing hc, by rw [hst]; rfl, by rw [hst]; simp [Status.completed], by rw [hst]; rfl⟩
  | transfer off x u r n hi hu => exact .inr hu.report
  | assert hc ha => rw [hr] at ha; cases ha
  | _ => exact .inr (.inr ⟨rfl, rfl, rfl, rfl⟩)

/-! ### The reset state -/

/-- The reset values of R51 meet the invariant, whatever the bytes of INBUF and the levels of the ports. -/
theorem inv_of_heldInReset {s : State} (h : s.heldInReset) (hm : s.inbuf.wf = true) : s.Inv := by
  rw [h]
  exact {
    memory := hm
    active := show OtpConfig.default.Valid from ⟨by decide, by decide, by decide⟩
    busy_pending := rfl
    busy_flags := nofun
    one_report := rfl
    done_report := nofun
    no_report := fun _ => rfl
    report := nofun
    sample := nofun
    key_size := List.length_replicate
    key_len := by dsimp only; decide
    key_fill := by dsimp only; decide
    no_key := fun _ => ⟨rfl, rfl, rfl, rfl, rfl⟩
    offset_digest := by dsimp only; decide
    trunc_digest := by dsimp only; decide
    code_bound := by dsimp only; decide
    held := fun _ => rfl }

end Sys2Proof.Machine

namespace Sys2Proof.Proofs

open Sys2Proof.Machine

/-- Settles O7: `runEvent_next` and `runPending_next` give the answer; the steps written out are `runEvent` at their
event. -/
theorem everyStepAnswersNextUnlessPoweredDown : Obligations.EveryStepAnswersNextUnlessPoweredDown := by
  intro s
  refine ⟨fun ⟨rest, h⟩ => step_event h, fun hn => ?_, fun v x rest h => step_event h, fun rest h => step_event h,
    fun h hp => ?_⟩
  · cases he : s.events with
    | nil =>
      rw [step_noEvent he]
      exact runPending_next _
    | cons e rest =>
      rw [step_event he]
      exact runEvent_next (fun hd => hn ⟨rest, by rw [he, hd]⟩) _
  · rw [step_noEvent h]
    simp [runPending, hp, State.begin]

/-- Settles O8: CMD is stored, hence accepted, while idle and dropped while busy (R45, R30). -/
theorem commandWriteIsAcceptedOrDropped : Obligations.CommandWriteIsAcceptedOrDropped := by
  intro s w rest hr
  have ht : target 0x010#9 = .reg .cmd := by decide
  refine ⟨fun he hb => ?_, fun he hb => ?_, fun he => step_readReg hr he ht (.inr rfl)⟩
  · rw [step_storeReg hr he ht (.inl hb), ← acceptSample_eq]
    rfl
  · rw [step_writeReg hr he ht, writeReg_dropped w (by exact hb) rfl]
    rfl

/-- Settles O41: the obligation's list is the register map with each register's number. -/
theorem readsReturnTheRegisters : Obligations.ReadsReturnTheRegisters := by
  intro s rest off v hr hb he hmem
  have hmap : (off.toNat, v) ∈ registerMap.map fun e => (e.1, e.2.number s) := hmem
  obtain ⟨⟨o, r⟩, hmr, heq⟩ := List.mem_map.1 hmap
  obtain ⟨rfl, rfl⟩ := Prod.mk.inj heq
  obtain ⟨ht, hmask⟩ := target_of_mem_registerMap hmr
  rw [step_readReg hr he ht (hb.imp_right hmask), r.value_eq]

/-- Settles O44: each of the eleven offsets stores to its own register (`step_storeReg`). -/
theorem registerWritesStoreTheKeptBits : Obligations.RegisterWritesStoreTheKeptBits := by
  intro s off v rest hr hb he
  refine ⟨halfWritten off 0x020#9 0x024#9 s.cfg.start v, halfWritten off 0x028#9 0x02C#9 s.cfg.step v,
    halfWritten off 0x060#9 0x064#9 s.now v, halfWritten off 0x068#9 0x06C#9 s.counter v,
    if off = 0x030#9 then v.extractLsb' 0 4 else s.cfg.width, if off = 0x070#9 then v.extractLsb' 0 9 else s.textLen,
    if off = 0x008#9 then Ctrl.ofWord v else s.ctrl, fun hoff => ?_, rfl, halfWritten_toNat .., halfWritten_toNat ..,
    ite_extractLsb'_toNat .., halfWritten_toNat .., halfWritten_toNat .., ite_extractLsb'_toNat ..⟩
  have hmap : off.toNat ∈ [0x008#9, 0x020#9, 0x024#9, 0x028#9, 0x02C#9, 0x030#9, 0x060#9, 0x064#9, 0x068#9, 0x06C#9,
    0x070#9].map BitVec.toNat := hoff
  obtain ⟨o, ho, heq⟩ := List.mem_map.1 hmap
  obtain rfl := BitVec.eq_of_toNat_eq heq
  simp only [List.mem_cons, List.not_mem_nil, or_false] at ho
  rcases ho with rfl | rfl | rfl | rfl | rfl | rfl | rfl | rfl | rfl | rfl | rfl
  · exact step_storeReg (r := .ctrl) hr he (by decide) (.inl hb)
  · exact step_storeReg (r := .cfgStartLo) hr he (by decide) (.inl hb)
  · exact step_storeReg (r := .cfgStartHi) hr he (by decide) (.inl hb)
  · exact step_storeReg (r := .cfgStepLo) hr he (by decide) (.inl hb)
  · exact step_storeReg (r := .cfgStepHi) hr he (by decide) (.inl hb)
  · exact step_storeReg (r := .cfgWidth) hr he (by decide) (.inl hb)
  · exact step_storeReg (r := .nowLo) hr he (by decide) (.inl hb)
  · exact step_storeReg (r := .nowHi) hr he (by decide) (.inl hb)
  · exact step_storeReg (r := .counterLo) hr he (by decide) (.inl hb)
  · exact step_storeReg (r := .counterHi) hr he (by decide) (.inl hb)
  · exact step_storeReg (r := .textLen) hr he (by decide) (.inl hb)

/-- Settles O46: INBUFj is read as the word of its four bytes (`inbufWord_eq`). -/
theorem inbufReadsReturnTheBytes : Obligations.InbufReadsReturnTheBytes := by
  intro s j b0 b1 b2 b3 rest hr hj h0 h1 h2 h3 he
  rw [step_read hr he, State.busRead, target_inbufWord hj, ← inbufWord_eq h0 h1 h2 h3]
  rfl

/-- Settles O50: the write is never dropped, and clears the two flags as `and_not_getLsbD` says (R25). -/
theorem statusWriteClearsDoneAndOverrun : Obligations.StatusWriteClearsDoneAndOverrun := by
  intro s v rest hr he
  have ht : target 0x00C#9 = .reg .status := by decide
  rw [step_storeReg hr he ht (.inr rfl)]
  simp only [State.storeReg, Status.written, and_not_getLsbD]
  rfl

/-- Settles O52: of everything a step can do (`step_cases`), only a STATUS write and a reset take OVR down. -/
theorem overrunIsSticky : Obligations.OverrunIsSticky := by
  intro s t h hs ht
  cases step_cases h with
  | completion i t hc hx =>
    rw [exec_status hx] at ht
    exact absurd hs (by simpa [Status.completed] using ht)
  | transfer off x u r n hi hu =>
    rcases hu.ovr hs with hu | ⟨v, rfl, rfl, hv⟩
    · exact absurd hu (by simpa using ht)
    · exact .inr ⟨v, hi, hv⟩
  | assert hc ha => exact .inl ha
  | _ => exact absurd hs (by simpa using ht)

/-- Settles O59: read off `step_report`, BUSY being 1 exactly while a command is pending. -/
theorem oneOutcomeStaysReported : Obligations.OneOutcomeStaysReported := by
  intro s t hinv h hr
  rcases step_report h hr with ⟨hp, htb, hv, hd⟩ | ⟨hb, htb⟩ | ⟨htb, hv, he, herr⟩
  · refine ⟨fun hb => ?_, fun _ _ => ⟨by simp [hv], hd⟩⟩
    rw [hinv.busy_pending, hp] at hb
    cases hb
  · exact ⟨fun _ _ => .inl htb, fun hb' => by rw [hb] at hb'; cases hb'⟩
  · exact ⟨fun _ _ => .inr ⟨hv, he, herr⟩, fun hb hb' => by rw [htb, hb] at hb'; cases hb'⟩

/-- Settles O5: `step_complete` and `step_scheduleEmpty`. -/
theorem stepRunsThePendingCommand : Obligations.StepRunsThePendingCommand :=
  fun _ _ _ hr hp => ⟨step_complete hr hp, step_scheduleEmpty hr hp⟩

/-- Settles O6: the placed word is pending, and its completion is the next event. -/
theorem placedWordRunsNext : Obligations.PlacedWordRunsNext := by
  intro s w
  rw [withFetchWord_word, step_complete (s.placeCommand_rst w) (s.placeCommand_pend w) (s.placeCommand_events w),
    ← acceptSample_eq]
  rfl

/-- Settles O55: each register, evaluated at the reset state. -/
theorem resetLeavesTheListedValues : Obligations.ResetLeavesTheListedValues :=
  ⟨rfl, rfl, rfl, rfl, rfl, rfl, rfl, rfl, rfl, rfl, rfl, rfl, rfl, rfl, rfl, rfl, rfl, rfl, rfl, rfl, rfl⟩

/-- Settles O57: the reset state is held in reset and its INBUF has the canonical form. -/
theorem resetMeetsTheInvariant : Obligations.ResetMeetsTheInvariant :=
  inv_of_heldInReset rfl (Memory.atReset_wf 0)

end Sys2Proof.Proofs
end

section
/-! PROOFS. Accesses by what they name: reads and their answers, offsets without a register, read-only registers, INBUF,
platform addresses, and every step while a command runs (20_memory.md R70 to R79, 70_reset_and_hazards.md R296). -/

namespace Sys2Proof.Machine

/-! ### What an offset names -/

/-- An aligned offset names a register, a word of INBUF or a reserved place (R72, R73). -/
theorem target_ne_misaligned {off : BitVec 9} (h : off.toNat % 4 = 0) : target off ≠ .misaligned := by
  unfold target
  rw [if_neg (by simpa using h)]
  split
  · nofun
  · split <;> nofun

/-- An offset that names a register stands in the register map with it (R21). -/
theorem mem_registerMap_of_target {off : BitVec 9} {r : Reg} (h : target off = .reg r) :
    (off.toNat, r) ∈ registerMap := by
  unfold target at h
  split at h
  · cases h
  · split at h
    · cases h
    · split at h
      · next hl =>
        injection h with h
        obtain ⟨l₁, l₂, hl, -⟩ := List.lookup_eq_some_iff.1 hl
        simp [hl, h]
      · cases h

/-- The aligned offsets of the two ranges of result registers (R42 to R44). -/
def ResultOffset (n : Nat) : Prop := n % 4 = 0 ∧ ((0x080 ≤ n ∧ n ≤ 0x094) ∨ (0x0A0 ≤ n ∧ n ≤ 0x0BC))

/-- A register elsewhere is no result register (R297). -/
theorem resultMask_of_not_resultOffset {off : BitVec 9} {r : Reg} (ht : target off = .reg r)
    (hn : ¬ ResultOffset off.toNat) : r.resultMask = none := by
  have all : ∀ e ∈ registerMap, ¬ ResultOffset e.1 → e.2.resultMask = none := by
    unfold ResultOffset
    decide
  exact all _ (mem_registerMap_of_target ht) hn

/-- The reserved ranges hold no register (R73). -/
theorem target_reserved {off : BitVec 9} (ha : off.toNat % 4 = 0)
    (h : (0x018 ≤ off.toNat ∧ off.toNat ≤ 0x01C) ∨ (0x034 ≤ off.toNat ∧ off.toNat ≤ 0x03C) ∨
      (0x054 ≤ off.toNat ∧ off.toNat ≤ 0x05C) ∨ (0x078 ≤ off.toNat ∧ off.toNat ≤ 0x07C) ∨
      (0x098 ≤ off.toNat ∧ off.toNat ≤ 0x09C) ∨ (0x0C0 ≤ off.toNat ∧ off.toNat ≤ 0x0FC)) :
    target off = .reserved := by
  revert off
  decide +kernel

/-! ### Transfers that reach no register -/

/-- A transfer at a reserved offset is answered and does nothing (R73). -/
theorem portTransfer_reserved {s : State} {off : BitVec 9} (hr : s.rst = false) (ht : target off = .reserved)
    (x : Transfer) : s.portTransfer off x = s.respond 0#32 false := by
  cases x <;> simp [State.portTransfer, State.busRead, State.busWrite, hr, ht]

/-- A misaligned transfer gets the error response and does nothing (R72). -/
theorem portTransfer_misaligned {s : State} {off : BitVec 9} (hr : s.rst = false) (ht : target off = .misaligned)
    (x : Transfer) : s.portTransfer off x = s.respond 0#32 true := by
  cases x <;> simp [State.portTransfer, State.busRead, State.busWrite, hr, ht]

/-- A read of a register is answered without an error. -/
theorem readReg_resp (s : State) (r : Reg) : ∃ data, (s.readReg r).resp = some { data := data, error := false } := by
  unfold State.readReg
  split <;> exact ⟨_, rfl⟩

/-- An aligned transfer is answered without an error (R72). -/
theorem portTransfer_resp_of_aligned {s : State} {off : BitVec 9} (ha : off.toNat % 4 = 0) (x : Transfer) :
    ∃ data, (s.portTransfer off x).resp = some { data := data, error := false } := by
  unfold State.portTransfer
  split
  · exact ⟨_, rfl⟩
  · cases x with
    | read =>
      simp only [State.busRead]
      split
      · exact readReg_resp s _
      · exact ⟨_, rfl⟩
      · exact ⟨_, rfl⟩
      · next ht => exact absurd ht (target_ne_misaligned ha)
    | write v =>
      simp only [State.busWrite]
      split
      · exact ⟨_, rfl⟩
      · exact ⟨_, rfl⟩
      · exact ⟨_, rfl⟩
      · next ht => exact absurd ht (target_ne_misaligned ha)

/-! ### What a read answers -/

/-- The answer to a read, where it is no free value (R22 to R46, R72, R73, R290). -/
def State.readAnswer (s : State) (off : BitVec 9) : Response :=
  if s.rst then { data := 0#32, error := false }
  else
    match target off with
    | .reg r => { data := r.value s, error := false }
    | .inbuf j => { data := inbufWord s.inbuf j, error := false }
    | .reserved => { data := 0#32, error := false }
    | .misaligned => { data := 0#32, error := true }

/-- The answer depends neither on the schedule nor on the last response. -/
theorem readAnswer_withEvents (s : State) (off : BitVec 9) (ev : List Event) (r : Option Response) :
    State.readAnswer { s with events := ev, resp := r } off = s.readAnswer off := by
  have hv : ∀ q : Reg, q.value { s with events := ev, resp := r } = q.value s := fun q => by cases q <;> rfl
  simp only [State.readAnswer, hv]

/-- Any read answers, and moves the draw counter at most (R79). -/
theorem portTransfer_read (s : State) (off : BitVec 9) :
    ∃ r n, s.portTransfer off .read = { s with resp := some r, draws := n } := by
  unfold State.portTransfer
  split
  · exact ⟨_, s.draws, rfl⟩
  · obtain ⟨r, n, h, -⟩ := busRead_spec s off
    exact ⟨r, n, h⟩

/-- A read is answered by `readAnswer`, but at a result register while a command runs (R297). -/
theorem portTransfer_read_eq {s : State} {off : BitVec 9}
    (h : s.status.busy = false ∨ s.rst = true ∨ ¬ ResultOffset off.toNat) :
    s.portTransfer off .read = { s with resp := some (s.readAnswer off) } := by
  by_cases hr : s.rst = true
  · simp [State.portTransfer, State.readAnswer, State.respond, hr]
  · have hv : ∀ r, target off = .reg r → s.readReg r = s.respond (r.value s) false := fun r ht =>
      readReg_value (h.imp_right fun h => resultMask_of_not_resultOffset ht (h.resolve_left hr))
    simp only [State.portTransfer, State.readAnswer, State.busRead, if_neg hr]
    cases ht : target off with
    | reg r => exact hv r ht
    | inbuf j => rfl
    | reserved => rfl
    | misaligned => rfl

/-- The step of a read, but at a result register while a command runs. -/
theorem step_readAnswer {s : State} {off : BitVec 9} {rest : List Event} (he : s.events = .port off .read :: rest)
    (h : s.status.busy = false ∨ s.rst = true ∨ ¬ ResultOffset off.toNat) :
    step s = .next { s with events := rest, resp := some (s.readAnswer off) } := by
  rw [step_port he, portTransfer_read_eq (by exact h), State.begin, readAnswer_withEvents]

/-! ### Read-only registers -/

/-- The read-only registers (R74): those a write neither stores to, nor starts a command by, nor clears flags of. -/
def Reg.readOnly (r : Reg) : Bool := r != .ctrl && r != .status && !r.frozenWhileBusy

/-- A write to a read-only register is ignored (R74). -/
theorem storeReg_readOnly {r : Reg} (h : r.readOnly = true) (s : State) (v : Word) : s.storeReg r v = s := by
  rcases storeReg_cases s r v with hs | ⟨rfl, -⟩ | ⟨rfl, -⟩ | ⟨rfl, -⟩ | ⟨hf, -⟩
  · exact hs
  · cases h
  · cases h
  · cases h
  · simp [Reg.readOnly, hf] at h

/-- No write to a read-only register is dropped (R296). -/
theorem frozenWhileBusy_of_readOnly {r : Reg} (h : r.readOnly = true) : r.frozenWhileBusy = false := by
  simp only [Reg.readOnly, Bool.and_eq_true, Bool.not_eq_true'] at h
  exact h.2

/-- The offsets of R74 hold read-only registers. -/
theorem target_readOnly {off : BitVec 9} (ha : off.toNat % 4 = 0)
    (h : off.toNat ≤ 0x004 ∨ off.toNat = 0x014 ∨ (0x040 ≤ off.toNat ∧ off.toNat ≤ 0x050) ∨ off.toNat = 0x074 ∨
      (0x080 ≤ off.toNat ∧ off.toNat ≤ 0x094) ∨ (0x0A0 ≤ off.toNat ∧ off.toNat ≤ 0x0BC)) :
    ∃ r, target off = .reg r ∧ r.readOnly = true := by
  have hmem : off.toNat ∈ (registerMap.filter fun e => e.2.readOnly).map Prod.fst := by
    revert off
    decide +kernel
  obtain ⟨⟨o, r⟩, hm, rfl⟩ := List.mem_map.1 hmem
  obtain ⟨hm, hro⟩ := List.mem_filter.1 hm
  exact ⟨r, (target_of_mem_registerMap hm).1, hro⟩

/-! ### INBUF -/

/-- In the canonical form every byte of INBUF has its cell. -/
theorem read?_eq_some_inbufByte {m : Memory} (h : m.wf = true) {i : Nat} (hi : i < 256) :
    m.read? (0x100 + i) = some (inbufByte m i) := by
  have hs : (m.read? (0x100 + i)).isSome = true := (m.read?_isSome _).2 ((Memory.wf_mem h _).2 (by omega))
  obtain ⟨b, hb⟩ := Option.isSome_iff_exists.1 hs
  simp [inbufByte, Memory.byte, inbufAddr, Config.inbufBase, hb]

/-! ### The window in the platform -/

/-- An address in the window reaches the port at its offset (R70). -/
theorem portOffset_inside (off : BitVec 9) : portOffset (Config.otpBase + off.toNat) = some off := by
  have := off.isLt
  unfold portOffset Config.window
  rw [if_pos (by omega), Nat.add_sub_cancel_left, BitVec.ofNat_toNat, BitVec.setWidth_eq]

/-- An address outside the window does not reach the port (R70). -/
theorem portOffset_outside {addr : Nat} (h : addr < Config.otpBase ∨ Config.otpBase + 0x200 ≤ addr) :
    portOffset addr = none := by
  unfold portOffset Config.window
  rw [if_neg (by omega)]

/-! ### Steps while a command runs -/

/-- A transfer while a command runs changes CTRL, DONE and OVR at most (R296). -/
theorem TransferEffect.eq_of_busy {s u : State} {off : BitVec 9} {x : Transfer} (h : TransferEffect s off x u)
    (hb : s.status.busy = true) :
    u = { s with ctrl := u.ctrl, status := { s.status with done := u.status.done, ovr := u.status.ovr } } := by
  have idle : s.status.busy ≠ false := by simp [hb]
  cases h with
  | none => rfl
  | ctrl v => rfl
  | status v => rfl
  | drop v => rfl
  | accept v _ _ hi => exact absurd hi idle
  | cfg v c _ hi | now v n _ hi | counter v n _ hi | textLen v n _ hi | inbuf v j _ hi => exact absurd hi idle

/-- A step while a command runs that neither completes it nor resets changes CTRL, DONE, OVR, the ports and the model's
own fields at most (R87, R296). -/
theorem step_eq_of_busy {s t : State} (h : step s = .next t) (hb : s.status.busy = true) (hc : s.completing = none)
    (hr : s.resetting = false) :
    t = { s with
      ctrl := t.ctrl, status := { s.status with done := t.status.done, ovr := t.status.ovr }
      rst := t.rst, timeValid := t.timeValid, timeIn := t.timeIn, resp := t.resp, events := t.events
      draws := t.draws } := by
  cases step_cases h with
  | completion i t hi => rw [hc] at hi; cases hi
  | transfer off x u r n _ hu =>
    rw [hu.eq_of_busy hb]
    rfl
  | quiet r => rfl
  | timePort v x => rfl
  | assert _ ha => rw [hr] at ha; cases ha
  | release => rfl

end Sys2Proof.Machine

namespace Sys2Proof.Proofs

open Sys2Proof.Machine

/-- Settles O11: `step_eq_of_busy` lists what may change, and none of the obligation's fields is on the list. -/
theorem runningCommandIsFrozen : Obligations.RunningCommandIsFrozen := by
  intro s t hb _ _ h hc hr
  rw [step_eq_of_busy h hb hc hr]
  exact ⟨rfl, hb, rfl, rfl, rfl, rfl, rfl, rfl, rfl, rfl, rfl, rfl, rfl, rfl, rfl, rfl, rfl, rfl, rfl⟩

/-- Settles O42: any read is `portTransfer_read`; a steady one is `step_readAnswer`, whose answer is the same when it is
read again. -/
theorem readsHaveNoSideEffect : Obligations.ReadsHaveNoSideEffect := by
  intro s off rest he
  by_cases h : s.status.busy = false ∨ s.rst = true ∨ ¬ ResultOffset off.toNat
  · have hsame := readAnswer_withEvents s off rest (some (s.readAnswer off))
    refine ⟨s.readAnswer off, s.draws, step_readAnswer he h, fun _ => ⟨rfl, fun rest' hrest => ?_⟩⟩
    rw [step_readAnswer hrest (by exact h), hsame]
  · obtain ⟨r, n, hx⟩ := portTransfer_read (s.begin rest) off
    exact ⟨r, n, by rw [step_port he, hx]; rfl, fun hs => absurd hs h⟩

/-- Settles O45: the memory is `writeInbufWord`, whose lanes and other bytes have their own lemmas. -/
theorem inbufWordIsLittleEndian : Obligations.InbufWordIsLittleEndian := by
  intro s j v rest hr hb hwf hj he
  have hwf' := writeInbufWord_wf hwf j v
  refine ⟨writeInbufWord s.inbuf j v, ?_, hwf', fun b hb4 => ?_, writeInbufWord_other s.inbuf j v⟩
  · rw [step_write hr he, State.busWrite, target_inbufWord hj]
    simp [State.writeInbuf, State.begin, State.respond, hb]
  · rw [Nat.add_assoc, read?_eq_some_inbufByte hwf' (by omega), writeInbufWord_lane hwf hj v hb4]

/-- Settles O47: `portTransfer_misaligned` and `portTransfer_resp_of_aligned`. -/
theorem misalignedAccessIsAnError : Obligations.MisalignedAccessIsAnError := by
  intro s off x rest hr he
  refine ⟨fun hm => ?_, fun ha => ?_⟩
  · rw [step_port he, portTransfer_misaligned (by exact hr) (target_misaligned hm)]
    rfl
  · obtain ⟨data, hd⟩ := portTransfer_resp_of_aligned (s := s.begin rest) ha x
    exact ⟨_, data, step_port he, hd⟩

/-- Settles O48: the offset's target is reserved. -/
theorem reservedOffsetsReadZero : Obligations.ReservedOffsetsReadZero := by
  intro s off x rest hr ha hoff he
  rw [step_port he, portTransfer_reserved (by exact hr) (target_reserved ha hoff)]
  rfl

/-- Settles O49: the write is never dropped, and stores nothing (`storeReg_readOnly`). -/
theorem readOnlyRegistersIgnoreWrites : Obligations.ReadOnlyRegistersIgnoreWrites := by
  intro s off v rest hr ha hoff he
  obtain ⟨r, ht, hro⟩ := target_readOnly ha hoff
  rw [step_storeReg hr he ht (.inr (frozenWhileBusy_of_readOnly hro)), storeReg_readOnly hro]
  rfl

/-- Settles O54: the base is a multiple of the window, and `portOffset` inverts the sum. -/
theorem windowIsDecodedAtItsBase : Obligations.WindowIsDecodedAtItsBase := by
  refine ⟨Nat.mul_mod_right .., fun s addr x rest he => ⟨fun off ha => ?_, fun ho => ?_⟩⟩
  · rw [step_event he, ha, step_port rfl]
    simp only [runEvent, State.platformTransfer, portOffset_inside]
    rfl
  · rw [step_event he]
    simp only [runEvent, State.platformTransfer, portOffset_outside ho]
    rfl

end Sys2Proof.Proofs
end

section
/-! PROOFS. The command word: `encode` places the two fields and `decode` reads them, RSVD first and then the opcode map
(30_encoding.md R100 to R104); what an illegal word reports (R105). -/

namespace Sys2Proof.Laws

/-! ### The fields of a word -/

@[simp] theorem opField_encode (i : Instr) : opField (encode i) = i.op := opField_append i.rsvd i.op

@[simp] theorem rsvdField_encode (i : Instr) : rsvdField (encode i) = i.rsvd := rsvdField_append i.rsvd i.op

/-- A word as a number: RSVD above OP (R101). -/
theorem word_toNat (w : Word) : w.toNat = (rsvdField w).toNat * 16 + (opField w).toNat := by
  have := w.isLt
  rw [opField, rsvdField, BitVec.extractLsb'_toNat, BitVec.extractLsb'_toNat, Nat.shiftRight_zero,
    Nat.shiftRight_eq_div_pow]
  omega

/-- The two fields are all of a word (R101). -/
theorem rsvdField_append_opField (w : Word) : (rsvdField w ++ opField w : Word) = w :=
  BitVec.eq_of_toNat_eq ((fields_toNat _ _).trans (word_toNat w).symm)

/-! ### The opcode map -/

/-- The opcodes without a command are 0 and 8 to 15 (R103). -/
theorem opcodeMap_eq_none_iff : ∀ op : BitVec 4, opcodeMap op = none ↔ op = 0#4 ∨ 8 ≤ op.toNat := by decide

/-- The map answers a well-formed command with the opcode asked for and no reserved bit (R103). -/
theorem opcodeMap_some : ∀ op : BitVec 4, ∀ i ∈ opcodeMap op, i.op = op ∧ i.rsvd = 0#28 ∧ i.wf = true :=
  by decide

/-- The map never answers ILLEGAL (R103). -/
theorem opcodeMap_ne_illegal (op op' : BitVec 4) (rsvd : BitVec 28) : opcodeMap op ≠ some (.illegal op' rsvd) := by
  unfold opcodeMap
  split <;> nofun

/-- An ILLEGAL command is well formed exactly if its fields name no command (R104). -/
theorem illegal_wf_iff (op : BitVec 4) (rsvd : BitVec 28) :
    (Instr.illegal op rsvd).wf = true ↔ rsvd ≠ 0#28 ∨ opcodeMap op = none := by
  simp [Instr.wf, opcodeMap_eq_none_iff, or_assoc]

/-! ### Decoding -/

/-- A word without reserved bits whose OP names a command stands for it (R104). -/
theorem decode_eq_of_opcodeMap {w : Word} {i : Instr} (hr : rsvdField w = 0#28) (hm : opcodeMap (opField w) = some i) :
    decode w = i := by
  simp [decode, hr, hm]

/-- A word whose fields name no command stands for ILLEGAL with these fields (R104). -/
theorem decode_eq_illegal {w : Word} (h : (Instr.illegal (opField w) (rsvdField w)).wf = true) :
    decode w = .illegal (opField w) (rsvdField w) := by
  unfold decode
  split
  · next hr =>
    have hm : opcodeMap (opField w) = none := ((illegal_wf_iff _ _).1 h).resolve_left (not_not_intro hr)
    rw [hm]
  · rfl

/-- What a word can decode to: the opcode map's command, or ILLEGAL with the word's fields (R104). -/
theorem decode_cases (w : Word) :
    (rsvdField w = 0#28 ∧ opcodeMap (opField w) = some (decode w)) ∨
      ((Instr.illegal (opField w) (rsvdField w)).wf = true ∧ decode w = .illegal (opField w) (rsvdField w)) := by
  by_cases hw : (Instr.illegal (opField w) (rsvdField w)).wf = true
  · exact .inr ⟨hw, decode_eq_illegal hw⟩
  · rw [illegal_wf_iff, not_or, not_not] at hw
    obtain ⟨hr, hm⟩ := hw
    obtain ⟨i, hi⟩ := Option.ne_none_iff_exists'.1 hm
    exact .inl ⟨hr, by rw [hi, decode_eq_of_opcodeMap hr hi]⟩

/-- A legal command's word decodes to it: the map takes its opcode back to it (R103, R104). -/
theorem decode_encode_of_opcodeMap {i : Instr} (hr : i.rsvd = 0#28) (hm : opcodeMap i.op = some i) :
    decode (encode i) = i :=
  decode_eq_of_opcodeMap ((rsvdField_encode i).trans hr) ((congrArg opcodeMap (opField_encode i)).trans hm)

theorem decode_encode {i : Instr} (h : i.wf = true) : decode (encode i) = i := by
  cases i with
  | cfgCommit => exact decode_encode_of_opcodeMap rfl rfl
  | cfgDefault => exact decode_encode_of_opcodeMap rfl rfl
  | keyB32 => exact decode_encode_of_opcodeMap rfl rfl
  | keyRaw => exact decode_encode_of_opcodeMap rfl rfl
  | hotp => exact decode_encode_of_opcodeMap rfl rfl
  | time => exact decode_encode_of_opcodeMap rfl rfl
  | totp => exact decode_encode_of_opcodeMap rfl rfl
  | illegal op rsvd =>
    have hw := decode_eq_illegal (w := encode (.illegal op rsvd))
    rw [opField_encode, rsvdField_encode] at hw
    exact hw h

theorem encode_decode (w : Word) : encode (decode w) = w := by
  obtain ⟨hrsvd, hop⟩ : (decode w).rsvd = rsvdField w ∧ (decode w).op = opField w := by
    rcases decode_cases w with ⟨hr, hm⟩ | ⟨-, hd⟩
    · obtain ⟨hop, hrsvd, -⟩ := opcodeMap_some _ _ hm
      exact ⟨hrsvd.trans hr.symm, hop⟩
    · rw [hd]
      exact ⟨rfl, rfl⟩
  rw [encode, hrsvd, hop, rsvdField_append_opField]

theorem decode_wf (w : Word) : (decode w).wf = true := by
  rcases decode_cases w with ⟨-, hm⟩ | ⟨hw, hd⟩
  · obtain ⟨-, -, hwf⟩ := opcodeMap_some _ _ hm
    exact hwf
  · rw [hd]
    exact hw

/-- The legal words are 1 to 7 (R104). -/
theorem decode_ne_illegal_iff (w : Word) :
    (∀ op rsvd, decode w ≠ .illegal op rsvd) ↔ 1 ≤ w.toNat ∧ w.toNat ≤ 7 := by
  have hop0 : opField w = 0#4 ↔ (opField w).toNat = 0 := BitVec.toNat_inj.symm
  have hr0 : rsvdField w = 0#28 ↔ (rsvdField w).toNat = 0 := BitVec.toNat_inj.symm
  rw [word_toNat w]
  rcases decode_cases w with ⟨hr, hm⟩ | ⟨hw, hd⟩
  · have hlegal : ∀ op rsvd, decode w ≠ .illegal op rsvd := fun op rsvd h =>
      opcodeMap_ne_illegal (opField w) op rsvd (h ▸ hm)
    have hsome : ¬ (opField w = 0#4 ∨ 8 ≤ (opField w).toNat) := by simp [← opcodeMap_eq_none_iff, hm]
    rw [hr0] at hr
    rw [hop0] at hsome
    exact iff_of_true hlegal (by omega)
  · rw [illegal_wf_iff, opcodeMap_eq_none_iff, Ne, hr0, hop0] at hw
    exact iff_of_false (fun h => h _ _ hd) (by omega)

end Sys2Proof.Laws

namespace Sys2Proof.Machine

/-! ### What an illegal word reports -/

@[simp] theorem illegalError_code (rsvd : BitVec 28) : (illegalError rsvd).code = 5#4 := by
  unfold illegalError
  split <;> rfl

@[simp] theorem illegalError_detail (rsvd : BitVec 28) :
    (illegalError rsvd).detail = if rsvd = 0#28 then 1#4 else 2#4 := by
  unfold illegalError
  split <;> rfl

/-- ILLEGAL is an error entry and nothing else (R105). -/
theorem exec_illegal (op : BitVec 4) (rsvd : BitVec 28) (s : State) :
    exec (.illegal op rsvd) s = .next (s.endsInError 5#4 (if rsvd = 0#28 then 1#4 else 2#4) op) := by
  rw [exec_eq, commandWrites, completeWith_error, illegalError_code, illegalError_detail, Instr.op]

end Sys2Proof.Machine

namespace Sys2Proof.Proofs

open Sys2Proof.Machine Sys2Proof.Laws

/-- Settles O1: `decode_encode`, by cases on the command. -/
theorem decodeOfEncodeReturnsCommand : Obligations.DecodeOfEncodeReturnsCommand :=
  fun _ => decode_encode

/-- Settles O2: `encode_decode` and `decode_wf`, both read off `decode_cases`. -/
theorem encodeOfDecodeReturnsWord : Obligations.EncodeOfDecodeReturnsWord :=
  fun w => ⟨encode_decode w, decode_wf w⟩

/-- Settles O3: both kinds of illegal word are `decode_eq_illegal`; the legal words are `decode_ne_illegal_iff`. -/
theorem legalWordsAreExactlyOneToSeven : Obligations.LegalWordsAreExactlyOneToSeven := by
  refine ⟨fun w hr => ?_, fun w hr hop => ?_, by decide, decode_ne_illegal_iff⟩
  · exact ⟨decode_eq_illegal ((illegal_wf_iff _ _).2 (.inl hr)), illegalError_code _,
      (illegalError_detail _).trans (if_neg hr)⟩
  · have hd := decode_eq_illegal ((illegal_wf_iff _ _).2 (.inr ((opcodeMap_eq_none_iff _).2 hop)))
    rw [rsvdField, hr] at hd
    exact ⟨hd, rfl, rfl⟩

/-- Settles O4: the decoder evaluated on each of the words. -/
theorem writtenWordsDecode : Obligations.WrittenWordsDecode := by
  unfold Obligations.WrittenWordsDecode
  decide

/-- Settles O17: `exec_illegal`; the fields of a decoded word are the word's own, because it encodes back to it. -/
theorem illegalCommandIsReported : Obligations.IllegalCommandIsReported := by
  refine ⟨exec_illegal, fun w op rsvd h => ?_, fun s => exec_illegal 5#4 1#28 s⟩
  have hw : encode (.illegal op rsvd) = w := h ▸ encode_decode w
  subst hw
  exact ⟨(opField_encode (.illegal op rsvd)).symm, (rsvdField_encode (.illegal op rsvd)).symm⟩

end Sys2Proof.Proofs
end

section
/-! PROOFS. The configuration commands (40_configuration.md R122 to R124), and that every step keeps the block's
invariant: a rule for each update of the state, then the commands, the completion and the accesses made of them. -/

namespace Sys2Proof.Machine

/-! ### The checks of CFG_COMMIT -/

theorem firstError_stepZero {c : OtpConfig} (hs : c.step = 0#64) : c.firstError = some .stepZero := if_pos hs

theorem firstError_widthZero {c : OtpConfig} (hs : c.step ≠ 0#64) (hw : c.width = 0#4) :
    c.firstError = some .widthZero := by
  rw [OtpConfig.firstError, if_neg hs, if_pos hw]

theorem firstError_widthTooLarge {c : OtpConfig} (hs : c.step ≠ 0#64) (hw : 9 < c.width.toNat) :
    c.firstError = some .widthTooLarge := by
  have h0 : c.width ≠ 0#4 := fun h => by simp [h] at hw
  rw [OtpConfig.firstError, if_neg hs, if_neg h0]
  exact if_pos hw

theorem firstError_legal {c : OtpConfig} (hs : c.step ≠ 0#64) (h1 : 1 ≤ c.width.toNat) (h9 : c.width.toNat ≤ 9) :
    c.firstError = none := by
  have h0 : c.width ≠ 0#4 := fun h => by simp [h] at h1
  rw [OtpConfig.firstError, if_neg hs, if_neg h0]
  exact if_neg (Nat.not_lt.2 h9)

/-- CFG_COMMIT with a failing check is that check's error entry (R122). -/
theorem exec_cfgCommit_error {s : State} {e : CmdError} (h : s.cfg.firstError = some e) :
    exec .cfgCommit s = .next (s.endsInError e.code e.detail 1#4) := by
  rw [exec_eq, commandWrites, commitConfig, h]
  rfl

/-- CFG_COMMIT with no failing check makes the staged copy active (R122). -/
theorem exec_cfgCommit_ok {s : State} (h : s.cfg.firstError = none) :
    exec .cfgCommit s = .next ({ s with act := s.cfg }).endsWell := by
  rw [exec_eq, commandWrites, commitConfig, h]
  rfl

theorem default_valid : OtpConfig.default.Valid := ⟨by decide, by decide, by decide⟩

/-! ### The size of a decoded key -/

/-- A group decodes to at most five bytes (41_secret_codec.md R143). -/
theorem decodeGroup_length_le {l : Bool} {g b : List Byte} (h : decodeGroup l g = .ok b) : b.length ≤ 5 := by
  simp only [decodeGroup] at h
  iterate 4 (split at h; · cases h)
  injection h with h
  rw [← h, beBytes_length]
  omega

theorem decodeGroups_length_le {n : Nat} {t k : List Byte} (h : decodeGroups n t = .ok k) : k.length ≤ 5 * n := by
  induction n generalizing t k with
  | zero =>
    injection h with h
    simp [← h]
  | succ n ih =>
    rw [decodeGroups] at h
    split at h
    · cases h
    next bytes hb =>
    split at h
    · cases h
    next rest hr =>
    injection h with h
    have := decodeGroup_length_le hb
    have := ih hr
    rw [← h, List.length_append]
    omega

/-- A text that decodes, of at most 256 symbols, gives a key that fits KEY (R143, R148). -/
theorem base32Decode_length_le {t k : List Byte} (h : base32Decode t = .ok k) : k.length ≤ 160 := by
  unfold base32Decode at h
  split at h
  · cases h
  next hcap =>
  iterate 2 (split at h; · cases h)
  have := decodeGroups_length_le h
  simp only [Config.inbufCap] at hcap
  omega

/-! ### The invariant through each update of the state -/

/-- While `rst` is released the reset state need not be held (70_reset_and_hazards.md R290). -/
theorem held_of_released {s : State} (hr : s.rst = false) : s.rst = true → s.heldInReset := by
  simp [hr]

/-- `s` with other levels at the time port and other values in the response and in the model's own fields. -/
def State.withPorts (s : State) (v : Bool) (x : DWord) (r : Option Response) (ev : List Event) (n : Nat) : State :=
  { s with timeValid := v, timeIn := x, resp := r, events := ev, draws := n }

/-- The invariant says nothing of the ports, the schedule and the draws, and R290 lets them go on through a reset. -/
theorem State.Inv.withPorts {s : State} (h : s.Inv) (v : Bool) (x : DWord) (r : Option Response) (ev : List Event)
    (n : Nat) : (s.withPorts v x r ev n).Inv :=
  { h with held := fun hr => congrArg (State.withPorts · v x r ev n) (h.held hr) }

theorem State.Inv.begin {s : State} (h : s.Inv) (rest : List Event) : (s.begin rest).Inv :=
  h.withPorts s.timeValid s.timeIn none rest s.draws

theorem State.Inv.releaseReset {s : State} (h : s.Inv) : s.releaseReset.Inv :=
  { h with held := nofun }

/-- The reset step establishes the invariant from any state (R290, R291). -/
theorem inv_assertReset (s : State) : s.assertReset.Inv :=
  inv_of_heldInReset rfl (Memory.atReset_wf s.draws)

section
variable {s : State} (h : s.Inv) (hr : s.rst = false)
include h hr

/-- The configuration writes: the active copy stays valid (R121). -/
theorem State.Inv.withConfig (staged : OtpConfig) {c : OtpConfig} (hc : c.Valid) :
    ({ s with cfg := staged, act := c } : State).Inv :=
  { h with active := hc, held := held_of_released hr }

/-- `StoreKey` of a key that fits zero-fills the rest of KEY (41_secret_codec.md R146, 10_state.md R47). -/
theorem State.Inv.storeKey {k : List Byte} (hk : k.length ≤ 160) : (s.storeKey k).Inv := by
  have hlen : (s.storeKey k).keyLen.toNat = k.length := Nat.mod_eq_of_lt (by omega)
  exact { h with
    key_size := by simp [Config.keyCap, hk]
    key_len := hlen ▸ hk
    key_fill := by simp only [hlen, State.storeKey_key, List.drop_left, Config.keyCap]
    no_key := nofun
    held := held_of_released hr }

theorem State.Inv.storeTime (t : DWord) : (s.storeTime t).Inv :=
  { h with held := held_of_released hr }

/-- The code results agree with one another whatever the key and the counter (42_hotp_engine.md R182, R183, R185). -/
theorem State.Inv.storeHotp (hk : s.status.keyValid = true) (k : List Byte) (c : DWord) :
    (s.storeHotp (hotpValue k c s.act.width.toNat)).Inv := by
  have hbytes : (Digest.ofBytes (hmacSha1 k (be64 c))).bytes = hmacSha1 k (be64 c) :=
    Digest.bytes_ofBytes (hmacSha1_length k (be64 c))
  obtain ⟨-, -, hwidth⟩ := h.active
  exact { h with
    no_key := fun hn => absurd (hk.symm.trans hn) (by decide)
    offset_digest := by
      simp only [State.storeHotp_offset, State.storeHotp_digest, ← truncOffset_bytes, hotpValue, hotpOfDigest, hbytes]
    trunc_digest := by
      simp only [State.storeHotp_offset, State.storeHotp_digest, State.storeHotp_trunc, hotpValue, hotpOfDigest, hbytes]
    code_bound := ⟨codeOf_lt hwidth _, (codeOf_toNat _ _).trans_le (Nat.mod_le _ _)⟩
    held := held_of_released hr }

/-- A completion without an error: one report, no error, nothing pending (10_state.md R26 to R29, R33). -/
theorem State.Inv.endsWell : s.endsWell.Inv :=
  { h with
    busy_pending := rfl
    busy_flags := nofun
    one_report := rfl
    done_report := fun _ => rfl
    no_report := fun _ => rfl
    report := nofun
    sample := nofun
    held := held_of_released hr }

/-- A completion with an error of the table (60_exceptions.md R252, R254). -/
theorem State.Inv.endsInError (e : CmdError) (op : BitVec 4) : (s.endsInError e.code e.detail op).Inv :=
  { h with
    busy_pending := rfl
    busy_flags := nofun
    one_report := rfl
    done_report := fun _ => rfl
    no_report := nofun
    report := fun _ => ⟨e, rfl, rfl⟩
    sample := nofun
    held := held_of_released hr }

/-- Acceptance: BUSY with a pending word, its sample, and the last report cleared (10_state.md R45). -/
theorem State.Inv.accept (w : Word) : (s.accept w).Inv :=
  { h with
    busy_pending := rfl
    busy_flags := fun _ => ⟨rfl, rfl, rfl⟩
    one_report := rfl
    done_report := nofun
    no_report := fun _ => rfl
    report := nofun
    sample := by
      rintro p ⟨⟩
      rw [acceptSample_eq]
      split <;> simp_all
    held := held_of_released hr }

/-- A STATUS write can only clear DONE and OVR (10_state.md R25). -/
theorem State.Inv.writeStatus (v : Word) : ({ s with status := s.status.written v } : State).Inv :=
  { h with
    busy_flags := fun hb => by
      obtain ⟨hd, hreport⟩ := h.busy_flags hb
      exact ⟨by simp [Status.written, hd], hreport⟩
    done_report := fun hd => h.done_report (Bool.and_eq_true_iff.1 hd).1
    held := held_of_released hr }

/-! ### Commands and accesses -/

/-- The writes of every command keep the invariant. -/
theorem inv_of_commandWrites {i : Instr} {u : State} (hw : commandWrites i s = .ok u) : u.Inv := by
  rcases commandWrites_ok hw with ⟨-, hf, rfl⟩ | ⟨-, rfl⟩ | ⟨-, k, hk, rfl⟩ | ⟨-, hl, rfl⟩ | ⟨-, hv, rfl⟩ |
    ⟨-, t, -, rfl⟩ | ⟨-, hv, t, -, rfl⟩
  · exact h.withConfig hr s.cfg (firstError_none hf)
  · exact h.withConfig hr OtpConfig.default default_valid
  · exact h.storeKey hr (base32Decode_length_le hk)
  · exact h.storeKey hr ((keyFromRaw_text s).trans_le hl)
  · exact h.storeHotp hr hv s.keyBytes s.counter
  · exact h.storeTime hr t
  · exact (h.storeTime hr t).storeHotp hr hv s.keyBytes (stepCount t s.act)

/-- A completion keeps the invariant, with or without an error. -/
theorem inv_of_exec {i : Instr} {t : State} (hx : exec i s = .next t) : t.Inv := by
  rcases exec_cases hx with ⟨u, hw, rfl⟩ | ⟨e, -, rfl⟩
  · exact (inv_of_commandWrites h hr hw).endsWell ((commandWrites_frame hw).rst.trans hr)
  · exact h.endsInError hr e i.op

end

/-- Every access keeps the invariant. -/
theorem TransferEffect.inv {s u : State} {off : BitVec 9} {x : Transfer} (hu : TransferEffect s off x u) (h : s.Inv) :
    u.Inv := by
  cases hu with
  | none => exact h
  | status v hr ho => exact h.writeStatus hr v
  | accept v hr ho hb => exact h.accept hr v
  | inbuf v j hr hb hj ho => exact { h with memory := writeInbufWord_wf h.memory j v, held := held_of_released hr }
  | ctrl v hr | drop v hr | cfg v c hr | now v n hr | counter v n hr | textLen v n hr =>
    exact { h with held := held_of_released hr }

/-- A command completes only while `rst` is released (R290). -/
theorem rst_of_completing {s : State} {i : Instr} (h : s.completing = some i) : s.rst = false := by
  by_contra hr
  simp [State.completing, hr] at h

end Sys2Proof.Machine

namespace Sys2Proof.Proofs

open Sys2Proof.Machine

/-- Settles O18: each combination of step size and width decides `firstError`, and with it CFG_COMMIT. -/
theorem cfgCommitValidatesThenActivates : Obligations.CfgCommitValidatesThenActivates :=
  ⟨by decide, fun _ =>
    ⟨fun hs => exec_cfgCommit_error (firstError_stepZero hs),
      fun hs hw => exec_cfgCommit_error (firstError_widthZero hs hw),
      fun hs hw => exec_cfgCommit_error (firstError_widthTooLarge hs hw),
      fun hs h1 h9 => exec_cfgCommit_ok (firstError_legal hs h1 h9)⟩⟩

/-- Settles O19: CFG_DEFAULT has no check, so `exec_eq` is its completion without an error. -/
theorem cfgDefaultRestoresBothCopies : Obligations.CfgDefaultRestoresBothCopies :=
  ⟨by decide, exec_eq .cfgDefault⟩

/-- Settles O58: each thing a step can do (`step_cases`) keeps the invariant. -/
theorem everyStepKeepsTheInvariant : Obligations.EveryStepKeepsTheInvariant := by
  intro s t h hstep
  have hb := h.begin s.events.tail
  cases step_cases hstep with
  | completion i t hc hx => exact inv_of_exec hb ((s.begin_rst _).trans (rst_of_completing hc)) hx
  | transfer off x u r n hi hu => exact (hu.inv hb).withPorts u.timeValid u.timeIn (some r) u.events n
  | quiet r hc => exact h.withPorts s.timeValid s.timeIn r s.events.tail s.draws
  | timePort v x hc => exact hb.withPorts v x none s.events.tail s.draws
  | assert hc ha => exact inv_assertReset _
  | release hc => exact hb.releaseReset

end Sys2Proof.Proofs
end

section
/-! PROOFS. The key commands (41_secret_codec.md R146 to R149) and the base32 decoder: its checks in their order (R143),
and that it is the inverse of the RFC 4648 encoder (R145). -/

namespace Sys2Proof.Machine

/-! ### The alphabet -/

theorem symbolValue_isSome_iff (c : Byte) :
    (symbolValue c).isSome = true ↔
      (0x41 ≤ c.toNat ∧ c.toNat ≤ 0x5A) ∨ (0x32 ≤ c.toNat ∧ c.toNat ≤ 0x37) := by
  unfold symbolValue
  split_ifs with hletter hdigit
  · exact iff_of_true rfl (.inl hletter)
  · exact iff_of_true rfl (.inr hdigit)
  · exact iff_of_false nofun (not_or.2 ⟨hletter, hdigit⟩)

theorem symbolValue_padByte : symbolValue padByte = none := by decide

/-- Data symbols are no padding (R141). -/
theorem padByte_not_mem {cs : List Byte} (h : ∀ c ∈ cs, symbolValue c ≠ none) : padByte ∉ cs :=
  fun hm => h padByte hm symbolValue_padByte

theorem invalidSymbol_eq_true_iff (c : Byte) : invalidSymbol c = true ↔ c ≠ padByte ∧ symbolValue c = none := by
  simp [invalidSymbol]

theorem invalidSymbol_eq_false_iff (c : Byte) : invalidSymbol c = false ↔ c = padByte ∨ symbolValue c ≠ none := by
  rw [← Bool.not_eq_true, invalidSymbol_eq_true_iff, not_and_or, not_not]

/-! ### The checks of a whole text -/

/-- A text whose groups are decoded: at most 256 bytes, whole groups, only alphabet symbols and padding (R143). -/
structure WellFormedText (t : List Byte) : Prop where
  cap : t.length ≤ 256
  groups : t.length % 8 = 0
  symbols : ∀ c ∈ t, c = padByte ∨ symbolValue c ≠ none

theorem base32Decode_malformedLength {t : List Byte} (h : 256 < t.length ∨ t.length % 8 ≠ 0) :
    base32Decode t = .error .malformedLength := by
  rcases h with h | h
  · exact if_pos h
  · rw [base32Decode, if_pos h, ite_self]

theorem base32Decode_invalidCharacter {t : List Byte} (hcap : t.length ≤ 256) (hgroups : t.length % 8 = 0)
    (hc : ∃ c ∈ t, c ≠ padByte ∧ symbolValue c = none) : base32Decode t = .error .invalidCharacter := by
  have hany : t.any invalidSymbol = true := by
    obtain ⟨c, hm, hbad⟩ := hc
    exact List.any_eq_true.2 ⟨c, hm, (invalidSymbol_eq_true_iff c).2 hbad⟩
  have hcap : ¬ t.length > Config.inbufCap := Nat.not_lt.2 hcap
  rw [base32Decode, if_neg hcap, if_neg (not_not.2 hgroups), if_pos hany]

theorem base32Decode_of_wellFormed {t : List Byte} (h : WellFormedText t) :
    base32Decode t = decodeGroups (t.length / 8) t := by
  have hany : t.any invalidSymbol = false :=
    List.any_eq_false.2 fun c hm => Bool.not_eq_true _ ▸ (invalidSymbol_eq_false_iff c).2 (h.symbols c hm)
  have hcap : ¬ t.length > Config.inbufCap := Nat.not_lt.2 h.cap
  rw [base32Decode, if_neg hcap, if_neg (not_not.2 h.groups), hany]
  rfl

/-- The three checks of a whole text exclude each other, and a text that passes them is well-formed (R143). -/
theorem text_cases (t : List Byte) :
    base32Decode t = .error .malformedLength ∨ base32Decode t = .error .invalidCharacter ∨ WellFormedText t := by
  by_cases hlen : 256 < t.length ∨ t.length % 8 ≠ 0
  · exact .inl (base32Decode_malformedLength hlen)
  obtain ⟨hcap, hgroups⟩ : t.length ≤ 256 ∧ t.length % 8 = 0 := by omega
  by_cases hbad : ∃ c ∈ t, c ≠ padByte ∧ symbolValue c = none
  · exact .inr (.inl (base32Decode_invalidCharacter hcap hgroups hbad))
  · push Not at hbad
    exact .inr (.inr ⟨hcap, hgroups, fun c hm => or_iff_not_imp_left.2 (hbad c hm)⟩)

/-- Only a well-formed text decodes. -/
theorem wellFormed_of_base32Decode {t b : List Byte} (h : base32Decode t = .ok b) : WellFormedText t := by
  rcases text_cases t with he | he | hw
  · cases he.symm.trans h
  · cases he.symm.trans h
  · exact hw

/-! ### The decoder raises only DecodeError (60_exceptions.md R251) -/

theorem decodeGroup_error_code {l : Bool} {g : List Byte} {e : CmdError} (h : decodeGroup l g = .error e) :
    e.code = 1#4 := by
  simp only [decodeGroup] at h
  iterate 4 (split at h; · cases h; rfl)
  cases h

theorem decodeGroups_error_code {n : Nat} {t : List Byte} {e : CmdError} (h : decodeGroups n t = .error e) :
    e.code = 1#4 := by
  induction n generalizing t with
  | zero => cases h
  | succ n ih =>
    rw [decodeGroups] at h
    split at h
    next e' hg =>
      cases h
      exact decodeGroup_error_code hg
    next bytes hg =>
      split at h
      next e' hr =>
        cases h
        exact ih hr
      · cases h

theorem base32Decode_error_code {t : List Byte} {e : CmdError} (h : base32Decode t = .error e) : e.code = 1#4 := by
  rcases text_cases t with he | he | hw
  · cases he.symm.trans h
    rfl
  · cases he.symm.trans h
    rfl
  · exact decodeGroups_error_code ((base32Decode_of_wellFormed hw).symm.trans h)

/-! ### Padding and the last group -/

/-- Padding outside the last group is refused (R143). -/
theorem base32Decode_padBeforeLast {t : List Byte} (h : WellFormedText t) (hp : padByte ∈ t.take (t.length - 8)) :
    base32Decode t = .error .invalidPadding := by
  rw [base32Decode_of_wellFormed h]
  exact decodeGroups_padBeforeLast (by have := h.groups; omega) hp

/-- Full groups without padding decode to five bytes each; the last group decides the rest (R142, R143). -/
theorem base32Decode_append {front g : List Byte} (h : WellFormedText (front ++ g)) (hp : padByte ∉ front)
    (hg : g.length = 8) :
    ∃ out : List Byte, out.length = 5 * (front.length / 8) ∧
      base32Decode (front ++ g) = (decodeGroup true g).map fun b => out ++ b := by
  have hgroups := h.groups
  rw [List.length_append, hg] at hgroups
  obtain ⟨out, hout, hdec⟩ := decodeGroups_append (n := front.length / 8) (by omega) hp hg
  refine ⟨out, hout, ?_⟩
  rw [base32Decode_of_wellFormed h, ← hdec, List.length_append, hg, Nat.add_div_right _ (by decide)]

/-- `=` before a data symbol is refused wherever it stands (R143). -/
theorem base32Decode_padBeforeData {t : List Byte} (h : WellFormedText t) {i j : Nat} {c : Byte} (hij : i < j)
    (hi : t[i]? = some padByte) (hj : t[j]? = some c) (hc : c ≠ padByte) :
    base32Decode t = .error .invalidPadding := by
  by_cases hp : padByte ∈ t.take (t.length - 8)
  · exact base32Decode_padBeforeLast h hp
  obtain ⟨hjlt, -⟩ := List.getElem?_eq_some_iff.1 hj
  have hgroups := h.groups
  have hlast : t.length - 8 ≤ i := by
    by_contra hlt
    exact hp (List.mem_of_getElem? ((List.getElem?_take_of_lt (by omega)).trans hi))
  have hshift : ∀ k, t.length - 8 ≤ k → (t.drop (t.length - 8))[k - (t.length - 8)]? = t[k]? := fun k hk => by
    rw [List.getElem?_drop, Nat.add_sub_of_le hk]
  have hg : (t.drop (t.length - 8)).length = 8 := by
    rw [List.length_drop]
    omega
  have hsplit := List.take_append_drop (t.length - 8) t
  obtain ⟨out, -, hdec⟩ := base32Decode_append (hsplit.symm ▸ h) hp hg
  rw [hsplit, decodeGroup_padBeforeData hg (by omega) ((hshift i hlast).trans hi) ((hshift j (by omega)).trans hj) hc]
    at hdec
  exact hdec

/-- The padding table: `p` padding bytes leave `nb` bytes and `lo` unused bits (R142, R143). -/
theorem padTable {p nb lo : Nat} (h : (p, nb, lo) ∈ [(0, 5, 0), (1, 4, 3), (3, 3, 1), (4, 2, 4), (6, 1, 2)]) :
    legalPads p = true ∧ nb = 5 * (8 - p) / 8 ∧ lo = 5 * (8 - p) - 8 * nb ∧ lo ≤ 5 := by
  simp only [List.mem_cons, Prod.mk.injEq, List.not_mem_nil, or_false] at h
  rcases h with ⟨rfl, rfl, rfl⟩ | ⟨rfl, rfl, rfl⟩ | ⟨rfl, rfl, rfl⟩ | ⟨rfl, rfl, rfl⟩ | ⟨rfl, rfl, rfl⟩ <;> decide

section
variable {front data : List Byte} {p : Nat} (hcap : front.length + 8 ≤ 256) (hgroups : front.length % 8 = 0)
  (hlen : data.length + p = 8) (hsym : ∀ c ∈ front ++ data, symbolValue c ≠ none)
include hcap hgroups hlen hsym

/-- Full groups of data symbols, then a last group of data symbols and `p` padding bytes, reach the checks of the last
group: the padding count, then the unused bits (R143). -/
theorem base32Decode_lastGroup :
    ∃ out : List Byte, out.length = 5 * (front.length / 8) ∧
      base32Decode (front ++ data ++ List.replicate p padByte) =
        (decodeGroup true (data ++ List.replicate p padByte)).map fun b => out ++ b := by
  have hpad := padByte_not_mem hsym
  rw [List.append_assoc]
  refine base32Decode_append ⟨?_, ?_, fun c hm => ?_⟩ (fun hm => hpad (List.mem_append_left _ hm)) (by simp [hlen])
  · simpa [hlen] using hcap
  · simp [hlen, hgroups]
  · rw [← List.append_assoc, List.mem_append] at hm
    rcases hm with hm | hm
    · exact .inr (hsym c hm)
    · exact .inl (List.eq_of_mem_replicate hm)

/-- With an illegal padding count the last group is refused before its unused bits are looked at (R142, R143). -/
theorem base32Decode_illegalPads (hp : legalPads p = false) :
    base32Decode (front ++ data ++ List.replicate p padByte) = .error .invalidPadding := by
  obtain ⟨out, -, hdec⟩ := base32Decode_lastGroup hcap hgroups hlen hsym
  have hdata : padByte ∉ data := fun hm => padByte_not_mem hsym (List.mem_append_right _ hm)
  rw [hdec, decodeGroup_last hlen hdata, if_pos hp]
  rfl

/-- With a legal padding count the low bits of the last symbol decide between 1.4 and the bytes (R143). -/
theorem base32Decode_legalPads {nb lo x : Nat} {init : List Byte} {c : Byte}
    (hrow : (p, nb, lo) ∈ [(0, 5, 0), (1, 4, 3), (3, 3, 1), (4, 2, 4), (6, 1, 2)]) (hlast : data = init ++ [c])
    (hc : symbolValue c = some x) :
    (x % 2 ^ lo ≠ 0 → base32Decode (front ++ data ++ List.replicate p padByte) = .error .unusedBits) ∧
      (x % 2 ^ lo = 0 → ∃ b, base32Decode (front ++ data ++ List.replicate p padByte) = .ok b ∧
        b.length = 5 * (front.length / 8) + nb) := by
  obtain ⟨hp, hnb, hlo, hlo5⟩ := padTable hrow
  obtain ⟨out, hout, hdec⟩ := base32Decode_lastGroup hcap hgroups hlen hsym
  have hdata : padByte ∉ data := fun hm => padByte_not_mem hsym (List.mem_append_right _ hm)
  have hmod : symbolsValue data % 2 ^ lo = x % 2 ^ lo := by rw [hlast, symbolsValue_mod_last hc hlo5]
  rw [hdec, decodeGroup_last hlen hdata, if_neg (by simp [hp]), ← hnb, ← hlo, hmod]
  constructor
  · intro hx
    rw [if_pos hx]
    rfl
  · intro hx
    rw [if_neg (not_not.2 hx)]
    exact ⟨out ++ beBytes nb (symbolsValue data / 2 ^ lo), rfl, by rw [List.length_append, hout, beBytes_length]⟩

end

/-! ### Decoder and encoder are inverse -/

/-- The bytes after the first five make one group fewer (R145). -/
theorem numGroups_drop {b : List Byte} (h : b ≠ []) : (b.length + 4) / 5 = ((b.drop 5).length + 4) / 5 + 1 := by
  have := List.length_pos_of_ne_nil h
  rw [List.length_drop]
  omega

/-- The encoder takes its input five bytes at a time. -/
theorem base32Encode_eq {b : List Byte} (h : b ≠ []) :
    base32Encode b = encodeGroup (b.take 5) ++ base32Encode (b.drop 5) := by
  rw [base32Encode, numGroups_drop h]
  rfl

/-- Induction over bytes as the encoder takes them: a group of up to five, then the rest. -/
theorem groups_induction {motive : List Byte → Prop} (nil : motive [])
    (group : ∀ b, b ≠ [] → motive (b.drop 5) → motive b) (b : List Byte) : motive b := by
  by_cases hb : b = []
  · exact hb ▸ nil
  · have hpos := List.length_pos_of_ne_nil hb
    exact group b hb (groups_induction nil group (b.drop 5))
termination_by b.length
decreasing_by rw [List.length_drop]; omega

/-- Each group of bytes, the last one too, is 8 symbols (R145). -/
theorem base32Encode_length (b : List Byte) : (base32Encode b).length = 8 * ((b.length + 4) / 5) := by
  induction b using groups_induction with
  | nil => rfl
  | group b hb ih =>
    rw [base32Encode_eq hb, List.length_append, encodeGroup_length (List.length_take_le 5 b), ih, numGroups_drop hb]
    omega

theorem mem_base32Encode {b : List Byte} {c : Byte} (hc : c ∈ base32Encode b) : invalidSymbol c = false := by
  induction b using groups_induction with
  | nil => cases hc
  | group b hb ih =>
    rw [base32Encode_eq hb, List.mem_append] at hc
    rcases hc with hc | hc
    · exact mem_encodeGroup hc
    · exact ih hc

theorem wellFormed_base32Encode {b : List Byte} (h : b.length ≤ 160) : WellFormedText (base32Encode b) where
  cap := by rw [base32Encode_length]; omega
  groups := by rw [base32Encode_length]; omega
  symbols := fun c hc => (invalidSymbol_eq_false_iff c).1 (mem_base32Encode hc)

/-- The groups of an encoded text decode to its bytes: all groups but the last hold five (R142). -/
theorem decodeGroups_base32Encode (b : List Byte) :
    decodeGroups ((b.length + 4) / 5) (base32Encode b) = .ok b := by
  induction b using groups_induction with
  | nil => rfl
  | group b hb ih =>
    have hpos := List.length_pos_of_ne_nil hb
    have htake : (b.take 5).length = min 5 b.length := List.length_take
    have h8 : (encodeGroup (b.take 5)).length = 8 := encodeGroup_length (by omega)
    have hfull : (((b.drop 5).length + 4) / 5 == 0) = false → (b.take 5).length = 5 := fun hl => by
      rw [beq_eq_false_iff_ne, List.length_drop] at hl
      omega
    have hgroup := decodeGroup_encodeGroup (b := b.take 5) (by omega) (by omega) hfull
    simp only [numGroups_drop hb, decodeGroups, base32Encode_eq hb, List.take_left' h8, List.drop_left' h8, hgroup, ih,
      List.take_append_drop]

/-- Groups that decode are the encoding of their bytes (R143, D18). -/
theorem eq_base32Encode_of_decodeGroups {n : Nat} {t b : List Byte} (ht : t.length = 8 * n)
    (hc : ∀ c ∈ t, c = padByte ∨ symbolValue c ≠ none) (h : decodeGroups n t = .ok b) : t = base32Encode b := by
  induction n generalizing t b with
  | zero =>
    cases h
    exact List.length_eq_zero_iff.1 ht
  | succ n ih =>
    rw [decodeGroups] at h
    split at h
    · cases h
    next bytes hg =>
    split at h
    · cases h
    next rest hr =>
    cases h
    obtain ⟨hgroup, hpos, -, hfull⟩ := decodeGroup_ok (by rw [List.length_take]; omega)
      (fun c hm => hc c (List.mem_of_mem_take hm)) hg
    have htail := ih (by rw [List.length_drop]; omega) (fun c hm => hc c (List.mem_of_mem_drop hm)) hr
    have hcut : (bytes ++ rest).take 5 = bytes ∧ (bytes ++ rest).drop 5 = rest := by
      cases n with
      | zero =>
        cases hr
        simp [List.take_of_length_le, List.drop_of_length_le, decodeGroup_length_le hg]
      | succ n => exact ⟨List.take_left' (hfull rfl), List.drop_left' (hfull rfl)⟩
    have hne : bytes ++ rest ≠ [] := List.append_ne_nil_of_left_ne_nil (List.ne_nil_of_length_pos hpos) rest
    rw [base32Encode_eq hne, hcut.1, hcut.2, ← hgroup, ← htail, List.take_append_drop]

theorem base32Decode_base32Encode {b : List Byte} (h : b.length ≤ 160) : base32Decode (base32Encode b) = .ok b := by
  rw [base32Decode_of_wellFormed (wellFormed_base32Encode h), base32Encode_length,
    Nat.mul_div_cancel_left _ (by decide)]
  exact decodeGroups_base32Encode b

theorem eq_base32Encode_of_base32Decode {t b : List Byte} (h : base32Decode t = .ok b) : t = base32Encode b := by
  have hw := wellFormed_of_base32Decode h
  rw [base32Decode_of_wellFormed hw] at h
  exact eq_base32Encode_of_decodeGroups (by have := hw.groups; omega) hw.symbols h

/-! ### The key commands -/

theorem exec_keyB32_ok {s : State} {k : List Byte} (h : base32Decode s.text = .ok k) :
    exec .keyB32 s = .next (s.storeKey k).endsWell := by
  rw [exec_eq, commandWrites, keyFromBase32, h]
  rfl

theorem exec_keyB32_error {s : State} {e : CmdError} (h : base32Decode s.text = .error e) :
    exec .keyB32 s = .next (s.endsInError e.code e.detail 3#4) := by
  rw [exec_eq, commandWrites, keyFromBase32, h]
  rfl

theorem exec_keyRaw_ok {s : State} (h : s.textLen.toNat ≤ 160) :
    exec .keyRaw s = .next (s.storeKey s.text).endsWell := by
  have hcap : ¬ s.textLen.toNat > Config.keyCap := Nat.not_lt.2 h
  rw [exec_eq, commandWrites, keyFromRaw, if_neg hcap]
  rfl

theorem exec_keyRaw_error {s : State} (h : 160 < s.textLen.toNat) :
    exec .keyRaw s = .next (s.endsInError 4#4 2#4 4#4) := by
  have hcap : s.textLen.toNat > Config.keyCap := h
  rw [exec_eq, commandWrites, keyFromRaw, if_pos hcap]
  rfl

/-- KEY_LEN counts a key that fits (R146). -/
theorem storeKey_keyLen_toNat (s : State) {k : List Byte} (hk : k.length ≤ 160) :
    (s.storeKey k).keyLen.toNat = k.length :=
  Nat.mod_eq_of_lt (by omega)

/-- The key the engine reads is the one stored (R146). -/
theorem storeKey_keyBytes (s : State) {k : List Byte} (hk : k.length ≤ 160) : (s.storeKey k).keyBytes = k := by
  rw [State.keyBytes, storeKey_keyLen_toNat s hk]
  exact List.take_left

/-- Every byte of KEY is the stored key's, or 0 (R146). -/
theorem storeKey_key_getElem? (s : State) (k : List Byte) {n : Nat} (hn : n < 160) :
    (s.storeKey k).key[n]? = some (if h : n < k.length then k[n] else 0#8) := by
  rw [State.storeKey_key]
  split
  next h => rw [List.getElem?_append_left h, List.getElem?_eq_getElem h]
  next h =>
    have hfill : n - k.length < Config.keyCap - k.length := by
      have : Config.keyCap = 160 := rfl
      omega
    rw [List.getElem?_append_right (Nat.not_lt.1 h), List.getElem?_replicate_of_lt hfill]

/-- A key command that succeeds stores a key that fits (R148, R149). -/
theorem commandWrites_storeKey {i : Instr} {s u : State} (hi : i = .keyB32 ∨ i = .keyRaw)
    (h : commandWrites i s = .ok u) : ∃ k, k.length ≤ 160 ∧ u = s.storeKey k := by
  rcases commandWrites_ok h with ⟨rfl, -⟩ | ⟨rfl, -⟩ | ⟨-, k, hk, rfl⟩ | ⟨-, hl, rfl⟩ | ⟨rfl, -⟩ | ⟨rfl, -⟩ | ⟨rfl, -⟩
  case inr.inr.inl => exact ⟨k, base32Decode_length_le hk, rfl⟩
  case inr.inr.inr.inl => exact ⟨s.text, (keyFromRaw_text s).trans_le hl, rfl⟩
  all_goals exact absurd hi (by decide)

/-- The writes of a key command do not depend on the key of before (R146). -/
theorem commandWrites_withKey {i : Instr} (hi : i = .keyB32 ∨ i = .keyRaw) (s : State) (old : List Byte)
    (oldLen : BitVec 8) : commandWrites i { s with key := old, keyLen := oldLen } = commandWrites i s := by
  rcases hi with rfl | rfl <;> rfl

end Sys2Proof.Machine

namespace Sys2Proof.Proofs

open Sys2Proof.Machine

/-- Settles O25: the encoded text decodes to its bytes (`base32Decode_base32Encode`, by induction on its groups), and
KEY_B32 stores what it decodes. -/
theorem base32RoundTripThroughKeyB32 : Obligations.Base32RoundTripThroughKeyB32 := by
  intro b hb
  have hdec := base32Decode_base32Encode hb
  refine ⟨(wellFormed_base32Encode hb).cap, hdec, fun s _ htext => ?_⟩
  have hs : base32Decode s.text = .ok b := (congrArg base32Decode htext).trans hdec
  exact ⟨_, exec_keyB32_ok hs, rfl, storeKey_keyLen_toNat s hb, storeKey_keyBytes s hb⟩

/-- Settles O26: each group that decodes is the encoding of its bytes (`eq_base32Encode_of_decodeGroups`). -/
theorem base32AcceptsOnlyCanonicalText : Obligations.Base32AcceptsOnlyCanonicalText :=
  fun _ _ h => ⟨eq_base32Encode_of_base32Decode h, base32Decode_length_le h⟩

/-- Settles O22: the writes are `storeKey` of a key that fits, and they do not depend on the key of before. -/
theorem newKeyReplacesTheOldOne : Obligations.NewKeyReplacesTheOldOne := by
  intro i s t hi hx hv
  obtain ⟨u, hw, rfl⟩ := exec_ok hx hv
  obtain ⟨k, hk, rfl⟩ := commandWrites_storeKey hi hw
  refine ⟨k, hk, storeKey_keyLen_toNat s hk, ?_, rfl, fun n => storeKey_key_getElem? s k, fun old oldLen => ?_⟩
  · simp [State.endsWell, Config.keyCap, hk]
  · rw [exec_eq, commandWrites_withKey hi, hw]
    rfl

/-- Settles O24: a lemma for each check, in the decoder's order. -/
theorem base32ChecksInOrder : Obligations.Base32ChecksInOrder := by
  refine ⟨fun t => ⟨base32Decode_malformedLength, base32Decode_invalidCharacter, fun hcap hgroups hsym => ?_⟩, ?_⟩
  · have hw : WellFormedText t := ⟨hcap, hgroups, hsym⟩
    exact ⟨base32Decode_padBeforeLast hw, fun _ _ _ => base32Decode_padBeforeData hw⟩
  · intro front data p hcap hgroups hlen hsym
    constructor
    · intro hp
      have hillegal : ∀ q ∈ [2, 5, 7, 8], legalPads q = false := by decide
      exact base32Decode_illegalPads hcap hgroups hlen hsym (hillegal p hp)
    · intro nb lo init c x
      exact base32Decode_legalPads hcap hgroups hlen hsym

/-- Settles O20: KEY_B32 on a text that decodes, and on one that does not; the decoder's errors all have code 1. -/
theorem keyB32StoresTheDecodedKey : Obligations.KeyB32StoresTheDecodedKey := by
  refine ⟨by decide, fun s => ⟨fun k => exec_keyB32_ok, fun e h => ?_⟩⟩
  have hcode := base32Decode_error_code h
  exact ⟨hcode, hcode ▸ exec_keyB32_error h⟩

/-- Settles O21: KEY_RAW with a length that fits and with one that does not. -/
theorem keyRawStoresTheBytes : Obligations.KeyRawStoresTheBytes := by
  refine ⟨by decide, fun s => ⟨exec_keyRaw_error, fun h => ?_⟩⟩
  have hlen : BitVec.ofNat 8 s.textLen.toNat = s.textLen.extractLsb' 0 8 := by
    apply BitVec.eq_of_toNat_eq
    rw [BitVec.toNat_ofNat, BitVec.extractLsb'_toNat, Nat.shiftRight_zero]
  rw [exec_keyRaw_ok h, State.storeKey, keyFromRaw_text, hlen]
  rfl

/-- Settles O23: the 32 values evaluated, and the two ranges of `symbolValue_isSome_iff`. -/
theorem alphabetHasThirtyTwoSymbols : Obligations.AlphabetHasThirtyTwoSymbols :=
  ⟨by decide, by decide, symbolValue_isSome_iff⟩

end Sys2Proof.Proofs
end

section
/-! PROOFS. SHA-1's padding and message schedule, HMAC on short and long keys (42_hotp_engine.md R171 to R179), and
HOTP: what it writes, and what its results depend on (R180 to R187). -/

namespace Sys2Proof.Machine

/-! ### The counter's bytes (R171) -/

/-- A byte of a big-endian serialisation is a byte field of the word. -/
theorem ofNat_div_eq_extractLsb' (c : DWord) (k : Nat) :
    BitVec.ofNat 8 (c.toNat / 256 ^ k) = c.extractLsb' (8 * k) 8 := by
  rw [BitVec.extractLsb', Nat.shiftRight_eq_div_pow, Nat.pow_mul]

/-! ### Padding (R172) -/

theorem padZeros_spec (len : Nat) : (len + 1 + padZeros len) % 64 = 56 := by
  unfold padZeros
  omega

theorem padZeros_least {len j : Nat} (h : (len + 1 + j) % 64 = 56) : padZeros len ≤ j := by
  unfold padZeros
  omega

theorem sha1Pad_length (x : List Byte) : (sha1Pad x).length = x.length + 1 + padZeros x.length + 8 := by
  simp only [sha1Pad, List.length_append, List.length_cons, List.length_replicate, beBytes_length]
  omega

/-! ### The message schedule (R175) -/

@[simp] theorem blockWords_length (n : Nat) (y : List Byte) : (blockWords n y).length = n := by
  induction n generalizing y with
  | zero => rfl
  | succ n ih => rw [blockWords, List.length_cons, ih]

theorem blockWords_getElem? {n t : Nat} (y : List Byte) (ht : t < n) :
    (blockWords n y)[t]? = some (fromBE32 ((y.drop (4 * t)).take 4)) := by
  induction n generalizing t y with
  | zero => omega
  | succ n ih =>
    cases t with
    | zero => rfl
    | succ t =>
      rw [blockWords, List.getElem?_cons_succ, ih (y.drop 4) (by omega), List.drop_drop, Nat.mul_succ, Nat.add_comm]

/-- Every word of `ws` from the 16th on, oldest first, is R175's combination of four earlier words. -/
def FollowsRecurrence (ws : List Word) : Prop :=
  ∀ t, 16 ≤ t → t < ws.length →
    ws.getD t 0#32 = (ws.getD (t - 3) 0#32 ^^^ ws.getD (t - 8) 0#32 ^^^ ws.getD (t - 14) 0#32 ^^^
      ws.getD (t - 16) 0#32).rotateLeft 1

/-- `nextWord` reads the words newest first; counted from the oldest they are the recurrence's four. -/
theorem nextWord_eq {prev : List Word} (h : 16 ≤ prev.length) :
    nextWord prev = (prev.reverse.getD (prev.length - 3) 0#32 ^^^ prev.reverse.getD (prev.length - 8) 0#32 ^^^
      prev.reverse.getD (prev.length - 14) 0#32 ^^^ prev.reverse.getD (prev.length - 16) 0#32).rotateLeft 1 := by
  have newest {i j : Nat} (hij : prev.length - 1 - j = i) (hj : j < prev.length) :
      prev.reverse.getD j 0#32 = prev.getD i 0#32 := by
    rw [List.getD_reverse j hj, hij]
  rw [nextWord, newest (i := 2) (by omega) (by omega), newest (i := 7) (by omega) (by omega),
    newest (i := 13) (by omega) (by omega), newest (i := 15) (by omega) (by omega)]

/-- One more word keeps the recurrence. -/
theorem FollowsRecurrence.cons_nextWord {prev : List Word} (hlen : 16 ≤ prev.length)
    (h : FollowsRecurrence prev.reverse) : FollowsRecurrence (nextWord prev :: prev).reverse := by
  intro t ht hlt
  rw [List.length_reverse, List.length_cons] at hlt
  have old {i : Nat} (hi : i < prev.length) :
      (prev.reverse ++ [nextWord prev]).getD i 0#32 = prev.reverse.getD i 0#32 :=
    List.getD_append _ _ _ _ (by rwa [List.length_reverse])
  rw [List.reverse_cons, old (i := t - 3) (by omega), old (i := t - 8) (by omega), old (i := t - 14) (by omega),
    old (i := t - 16) (by omega)]
  rcases Nat.lt_succ_iff_lt_or_eq.1 hlt with hold | rfl
  · rw [old hold]
    exact h t ht (by rwa [List.length_reverse])
  · rw [← nextWord_eq hlen, List.getD_append_right _ _ _ _ (by rw [List.length_reverse]), List.length_reverse,
      Nat.sub_self]
    rfl

/-- The recurrence through any number of further words; the words so far stay in front. -/
theorem extendSchedule_spec (n : Nat) {prev : List Word} (hlen : 16 ≤ prev.length)
    (h : FollowsRecurrence prev.reverse) :
    (extendSchedule n prev).length = n + prev.length ∧
      (∃ later, (extendSchedule n prev).reverse = prev.reverse ++ later) ∧
      FollowsRecurrence (extendSchedule n prev).reverse := by
  induction n generalizing prev with
  | zero => exact ⟨(Nat.zero_add _).symm, ⟨[], (List.append_nil _).symm⟩, h⟩
  | succ n ih =>
    obtain ⟨hlen', ⟨later, hlater⟩, hrec⟩ :=
      ih (prev := nextWord prev :: prev) (Nat.le_succ_of_le hlen) (h.cons_nextWord hlen)
    refine ⟨?_, ⟨nextWord prev :: later, ?_⟩, hrec⟩
    · rw [extendSchedule, hlen', List.length_cons]
      omega
    · rw [extendSchedule, hlater, List.reverse_cons, List.append_assoc, List.singleton_append]

/-- The schedule of a block: 80 words, the block's own first, the rest by the recurrence. -/
theorem schedule_spec (y : List Byte) :
    (schedule y).length = 80 ∧ (∃ later, schedule y = blockWords 16 y ++ later) ∧ FollowsRecurrence (schedule y) := by
  have hbase : FollowsRecurrence (blockWords 16 y).reverse.reverse := by
    intro t ht hlt
    simp only [List.length_reverse, blockWords_length] at hlt
    omega
  obtain ⟨hlen, hlater, hrec⟩ := extendSchedule_spec 64 (by simp) hbase
  rw [List.reverse_reverse] at hlater
  refine ⟨?_, hlater, hrec⟩
  rw [schedule, List.length_reverse, hlen, List.length_reverse, blockWords_length]

/-! ### HMAC's key block (R178) -/

theorem hmacKeyBlock_short {k : List Byte} (h : k.length ≤ 64) :
    hmacKeyBlock k = k ++ List.replicate (64 - k.length) 0#8 :=
  if_neg (Nat.not_lt.2 h)

/-- Zero bytes appended within a block are what the zero fill would add. -/
theorem hmacKeyBlock_append_zeros {k : List Byte} {n : Nat} (h : k.length + n ≤ 64) :
    hmacKeyBlock (k ++ List.replicate n 0#8) = hmacKeyBlock k := by
  have hfill : n + (64 - (k.length + n)) = 64 - k.length := by omega
  rw [hmacKeyBlock_short (by simpa using h), hmacKeyBlock_short (by omega), List.length_append, List.length_replicate,
    List.append_assoc, List.replicate_append_replicate, hfill]

/-- A long key acts as its SHA-1, which is short. -/
theorem hmacKeyBlock_long {k : List Byte} (h : 64 < k.length) : hmacKeyBlock k = hmacKeyBlock (sha1 k) := by
  rw [hmacKeyBlock_short (k := sha1 k) (by simp)]
  exact if_pos h

/-! ### The code results on numbers (R181, R182, R183) -/

/-- Truncation on numbers: the offset, the 31-bit value at the offset, and the code. -/
theorem hotpOfDigest_eq {d : List Byte} {off p : Nat} (w : Nat) (hoff : off = (d.getD 19 0#8).toNat % 16)
    (hp : p = (d.getD off 0#8).toNat % 128 * 2 ^ 24 + (d.getD (off + 1) 0#8).toNat * 2 ^ 16 +
      (d.getD (off + 2) 0#8).toNat * 2 ^ 8 + (d.getD (off + 3) 0#8).toNat) :
    hotpOfDigest d w = { digest := d, offset := BitVec.ofNat 4 off, trunc := BitVec.ofNat 31 p,
                         code := BitVec.ofNat 32 (p % 10 ^ w) } := by
  have ho : (truncOffset d).toNat = off := (truncOffset_toNat d).trans hoff.symm
  have ht : (trunc31 d off).toNat = p := (trunc31_toNat d off).trans hp.symm
  rw [hotpOfDigest, ho, codeOf, ht, (BitVec.toNat_eq_nat.1 ho).2, (BitVec.toNat_eq_nat.1 ht).2]

/-- OFFSET is the low nibble of DIGEST4 in the registers HOTP and TOTP write (R185). -/
theorem storeHotp_offset_eq_digest (s : State) (k : List Byte) (c : DWord) (w : Nat) :
    (s.storeHotp (hotpValue k c w)).offset = (s.storeHotp (hotpValue k c w)).digest.h4.extractLsb' 0 4 := by
  rw [← truncOffset_bytes, State.storeHotp_digest, State.storeHotp_offset, hotpValue, hotpOfDigest,
    Digest.bytes_ofBytes (hmacSha1_length _ _)]

/-! ### HOTP (R184) -/

theorem exec_hotp_noKey {s : State} (h : s.status.keyValid = false) :
    exec .hotp s = .next (s.endsInError 4#4 1#4 5#4) := by
  rw [exec_eq, commandWrites, hotpFromCounter, h]
  rfl

theorem exec_hotp_keyed {s : State} (h : s.status.keyValid = true) :
    exec .hotp s = .next (s.storeHotp (hotpValue s.keyBytes s.counter s.act.width.toNat)).endsWell := by
  rw [exec_eq, commandWrites, hotpFromCounter, h]
  rfl

/-- What a HOTP that succeeds leaves. -/
theorem exec_hotp_ok {s t : State} (hx : exec .hotp s = .next t) (hv : t.status.valid = true) :
    t = (s.storeHotp (hotpValue s.keyBytes s.counter s.act.width.toNat)).endsWell := by
  cases hk : s.status.keyValid with
  | true =>
    rw [exec_hotp_keyed hk] at hx
    injection hx with hx
    exact hx.symm
  | false =>
    rw [exec_hotp_noKey hk] at hx
    injection hx with hx
    rw [← hx] at hv
    cases hv

/-- What a HOTP or TOTP that succeeds leaves: the code results of some counter, at the active width. -/
theorem exec_storesHotp {i : Instr} {s t : State} (hi : i = .hotp ∨ i = .totp) (hx : exec i s = .next t)
    (hv : t.status.valid = true) :
    ∃ (r : State) (c : DWord), t = (r.storeHotp (hotpValue r.keyBytes c r.act.width.toNat)).endsWell := by
  rcases hi with rfl | rfl
  · exact ⟨s, s.counter, exec_hotp_ok hx hv⟩
  · obtain ⟨u, hw, rfl⟩ := exec_ok hx hv
    obtain ⟨h, -⟩ | ⟨h, -⟩ | ⟨h, -⟩ | ⟨h, -⟩ | ⟨h, -⟩ | ⟨h, -⟩ | ⟨-, -, x, -, rfl⟩ := commandWrites_ok hw
    case inr.inr.inr.inr.inr.inr => exact ⟨s.storeTime x, stepCount x s.act, rfl⟩
    all_goals cases h

end Sys2Proof.Machine

namespace Sys2Proof.Proofs

open Sys2Proof.Machine

/-- Settles O27: the padding ends a block because `padZeros` solves its congruence, and least. -/
theorem sha1PaddingFillsBlocks : Obligations.Sha1PaddingFillsBlocks := by
  intro x
  have hmod := padZeros_spec x.length
  refine ⟨padZeros x.length, ?_, hmod, fun _ => padZeros_least, ?_⟩
  · simp [sha1Pad]
  · rw [sha1Pad_length]
    omega

/-- Settles O28: `schedule_spec`, whose recurrence goes by induction on the words added. -/
theorem sha1ScheduleFollowsItsRecurrence : Obligations.Sha1ScheduleFollowsItsRecurrence := by
  intro y _
  obtain ⟨hlen, ⟨later, hlater⟩, hrec⟩ := schedule_spec y
  refine ⟨hlen, fun t ht => ?_, fun t h16 h80 => ?_⟩
  · have hlt : t < (blockWords 16 y).length := by rwa [blockWords_length]
    rw [hlater, List.getElem?_append_left hlt, blockWords_getElem? y ht]
  · have hword {i : Nat} (hi : i < 80) : (schedule y)[i]? = some ((schedule y).getD i 0#32) := by
      rw [List.getD_eq_getElem _ _ (hlen ▸ hi), List.getElem?_eq_getElem]
    refine ⟨_, _, _, _, hword (by omega), hword (by omega), hword (by omega), hword (by omega), ?_⟩
    rw [hword h80, hrec t h16 (hlen ▸ h80)]

/-- Settles O29: HMAC reads its key through `hmacKeyBlock` alone, so a lemma on the key block for each clause. -/
theorem hmacHandlesShortAndLongKeys : Obligations.HmacHandlesShortAndLongKeys := by
  intro k m
  refine ⟨hmacSha1_length k m, fun h => ?_, fun n h => ?_, fun h => ?_⟩
  · rw [hmacSha1, hmacKeyBlock_short h]
    rfl
  · rw [hmacSha1, hmacSha1, hmacKeyBlock_append_zeros h]
  · rw [hmacSha1, hmacSha1, hmacKeyBlock_long h]

/-- Settles O31: `exec_hotp_noKey`, and `exec_hotp_keyed` with the truncation on numbers (`hotpOfDigest_eq`). -/
theorem hotpWritesTheCode : Obligations.HotpWritesTheCode := by
  refine ⟨by decide, fun s => ⟨exec_hotp_noKey, ?_⟩⟩
  intro hk d off p hd hoff hp
  have hlen : d.length = 20 := hd ▸ hmacSha1_length _ _
  refine ⟨hlen, by omega, ?_⟩
  rw [exec_hotp_keyed hk, hotpValue, State.keyBytes, ← hd, hotpOfDigest_eq _ hoff hp]
  rfl

/-- Settles O32: DIGEST is written from the bytes of the HMAC, and those bytes are the outer hash's words. -/
theorem digestRegistersHoldTheOuterHash : Obligations.DigestRegistersHoldTheOuterHash := by
  intro s t hx hv
  rw [exec_hotp_ok hx hv]
  exact ⟨Digest.bytes_ofBytes (hmacSha1_length _ _), ofBytes_hmacSha1 _ _⟩

/-- Settles O33: both commands write a `hotpValue` of the active width, whatever that width is. -/
theorem codeIsInRange : Obligations.CodeIsInRange := by
  intro i s t hi _ hx hv
  obtain ⟨r, c, rfl⟩ := exec_storesHotp hi hx hv
  have hcode := codeOf_toNat (hotpValue r.keyBytes c r.act.width.toNat).trunc r.act.width.toNat
  refine ⟨?_, BitVec.isLt _, storeHotp_offset_eq_digest r _ _ _, hcode⟩
  exact hcode.trans_lt (Nat.mod_lt _ (by positivity))

/-- Settles O34: both states hold the `hotpValue` of one key and one counter, whose width enters CODE alone. -/
theorem hotpIsDeterministicAndWidthIndependent : Obligations.HotpIsDeterministicAndWidthIndependent := by
  intro s s' t t' hx hx' hv hv' (hkey : s.keyBytes = s'.keyBytes) hcounter
  rw [exec_hotp_ok hx hv, exec_hotp_ok hx' hv', hkey, hcounter]
  exact ⟨rfl, rfl, rfl, fun hwidth => by rw [hwidth]; rfl⟩

/-- Settles O30: byte by byte, `ofNat_div_eq_extractLsb'`. -/
theorem counterIsSerialisedBigEndian : Obligations.CounterIsSerialisedBigEndian := by
  intro c
  simp only [be64, beBytes, ofNat_div_eq_extractLsb']

/-- Settles O35: the vectors evaluated. -/
theorem publishedVectorsAreMet : Obligations.PublishedVectorsAreMet := by
  refine ⟨by decide +kernel, by decide +kernel, ?_⟩
  rintro k rfl
  exact ⟨by decide +kernel, by decide +kernel, by decide +kernel⟩

end Sys2Proof.Proofs
end

section
/-! PROOFS. The time sample and what TIME and TOTP make of it (43_time_step.md R210 to R217): the two values on numbers,
the three ways TIME completes, and that a sample in PEND is the only clock the two commands read. -/

namespace Sys2Proof.Machine

/-! ### The two values on numbers (R213, R214) -/

/-- The step counter is stored exactly (R213, R218). -/
theorem stepCount_toNat (t : DWord) (c : OtpConfig) :
    (stepCount t c).toNat = (t.toNat - c.start.toNat) / c.step.toNat := by
  have hle := Nat.div_le_self (t.toNat - c.start.toNat) c.step.toNat
  exact Nat.mod_eq_of_lt (by have := t.isLt; omega)

/-- The seconds remaining are stored exactly (R214, R218). -/
theorem secondsRemaining_toNat (t : DWord) (c : OtpConfig) :
    (secondsRemaining t c).toNat = c.step.toNat - (t.toNat - c.start.toNat) % c.step.toNat :=
  Nat.mod_eq_of_lt ((Nat.sub_le _ _).trans_lt c.step.isLt)

/-- The seconds remaining lie between 1 and the step size: a new window begins with the full size (R214). -/
theorem secondsRemaining_bounds {c : OtpConfig} (hc : 0 < c.step.toNat) (t : DWord) :
    1 ≤ (secondsRemaining t c).toNat ∧ (secondsRemaining t c).toNat ≤ c.step.toNat := by
  have hlt := Nat.mod_lt (t.toNat - c.start.toNat) hc
  rw [secondsRemaining_toNat]
  omega

/-- The window of `t` ends where the next step begins (R217). -/
theorem elapsed_add_secondsRemaining {c : OtpConfig} (hc : 0 < c.step.toNat) (t : DWord) :
    t.toNat - c.start.toNat + (secondsRemaining t c).toNat = ((stepCount t c).toNat + 1) * c.step.toNat := by
  have hlt := Nat.mod_lt (t.toNat - c.start.toNat) hc
  have hdiv := Nat.div_add_mod' (t.toNat - c.start.toNat) c.step.toNat
  rw [secondsRemaining_toNat, stepCount_toNat, Nat.succ_mul]
  omega

/-! ### The checked sample (R211, R212) -/

theorem checkSample_unavailable {x : Sample} (hx : x.valid = false) (start : DWord) :
    checkSample x start = .error .timeUnavailable := if_pos hx

theorem checkSample_beforeStart {x : Sample} {start : DWord} (hx : x.valid = true) (h : x.time.toNat < start.toNat) :
    checkSample x start = .error .timeBeforeStart := by
  rw [checkSample, hx, if_neg (by decide), if_pos h]

theorem checkSample_valid {x : Sample} {start : DWord} (hx : x.valid = true) (h : start.toNat ≤ x.time.toNat) :
    checkSample x start = .ok x.time := by
  rw [checkSample, hx, if_neg (by decide), if_neg (Nat.not_lt.2 h)]

/-- TIME and TOTP work on the sample that PEND holds, whatever the clock shows now (R210). -/
theorem commandSample_of_pend {s : State} {w : Word} {x : Sample}
    (hp : s.pend = some { word := w, sample := some x }) : s.commandSample = x := by
  rw [State.commandSample, hp]

/-! ### TIME (R215) -/

theorem exec_time_error {s : State} {e : CmdError} (h : checkSample s.commandSample s.act.start = .error e) :
    exec .time s = .next (s.endsInError e.code e.detail 6#4) := by
  rw [exec_eq, commandWrites, timeFromSample, h]
  rfl

theorem exec_time_ok {s : State} {t : DWord} (h : checkSample s.commandSample s.act.start = .ok t) :
    exec .time s = .next (s.storeTime t).endsWell := by
  rw [exec_eq, commandWrites, timeFromSample, h]
  rfl

/-- What a TIME or TOTP that succeeds leaves: the time results of a checked time, computed once (R215, R231). -/
theorem exec_storesTime {i : Instr} {s t : State} (hi : i = .time ∨ i = .totp) (hx : exec i s = .next t)
    (hv : t.status.valid = true) :
    ∃ x : DWord, s.act.start.toNat ≤ x.toNat ∧ t.act = s.act ∧ t.tsamp = x ∧ t.stepReg = stepCount x s.act ∧
      t.remain = secondsRemaining x s.act := by
  obtain ⟨u, hw, rfl⟩ := exec_ok hx hv
  rcases commandWrites_ok hw with ⟨rfl, -⟩ | ⟨rfl, -⟩ | ⟨rfl, -⟩ | ⟨rfl, -⟩ | ⟨rfl, -⟩ | ⟨-, x, hc, rfl⟩ |
    ⟨-, -, x, hc, rfl⟩
  case inr.inr.inr.inr.inr.inl => exact ⟨x, (checkSample_ok hc).2.1, rfl, rfl, rfl, rfl⟩
  case inr.inr.inr.inr.inr.inr => exact ⟨x, (checkSample_ok hc).2.1, rfl, rfl, rfl, rfl⟩
  all_goals exact absurd hi (by decide)

/-! ### The clock after acceptance (R210) -/

/-- `s` with everything that `Sample()` reads at other values: the time port, NOW and CTRL. -/
def State.withClock (s : State) (v : Bool) (u n : DWord) (c : Ctrl) : State :=
  { s with timeValid := v, timeIn := u, now := n, ctrl := c }

@[simp] theorem State.withClock_act (s : State) (v : Bool) (u n : DWord) (c : Ctrl) :
    (s.withClock v u n c).act = s.act := rfl

@[simp] theorem State.withClock_status (s : State) (v : Bool) (u n : DWord) (c : Ctrl) :
    (s.withClock v u n c).status = s.status := rfl

/-- Completion leaves the clock alone. -/
theorem completeWith_withClock (s : State) (op : BitVec 4) (r : Except CmdError State) (v : Bool) (u n : DWord)
    (c : Ctrl) :
    (s.withClock v u n c).completeWith op (r.map fun t => t.withClock v u n c) =
      (s.completeWith op r).withClock v u n c := by
  cases r <;> rfl

section
variable {i : Instr} {s : State} {w : Word} {x : Sample} (hi : i = .time ∨ i = .totp)
  (hp : s.pend = some { word := w, sample := some x }) (v : Bool) (u n : DWord) (c : Ctrl)
include hi hp

/-- With a sample in PEND the clock takes no part in the writes of TIME and TOTP: it goes through them unchanged. -/
theorem commandWrites_withClock :
    commandWrites i (s.withClock v u n c) = (commandWrites i s).map fun t => t.withClock v u n c := by
  have hs : s.commandSample = x := commandSample_of_pend hp
  have hs' : (s.withClock v u n c).commandSample = x := commandSample_of_pend hp
  rcases hi with rfl | rfl
  · rw [commandWrites, commandWrites, timeFromSample, timeFromSample, hs, hs', State.withClock_act]
    cases checkSample x s.act.start <;> rfl
  · rw [commandWrites, commandWrites, totpFromSample, totpFromSample, hs, hs', State.withClock_act,
      State.withClock_status]
    cases checkSample x s.act.start with
    | error e => rfl
    | ok t => cases s.status.keyValid <;> rfl

/-- With a sample in PEND the clock changes nothing that TIME and TOTP do (R210). -/
theorem exec_withClock {t : State} (hx : exec i s = .next t) :
    exec i (s.withClock v u n c) = .next (t.withClock v u n c) := by
  rw [exec_eq] at hx
  injection hx with hx
  rw [exec_eq, commandWrites_withClock hi hp, completeWith_withClock, hx]

end

end Sys2Proof.Machine

namespace Sys2Proof.Proofs

open Sys2Proof.Machine

/-- Settles O9: acceptance puts `sampleNow`, which reads TSRC, into PEND; from there on `exec_withClock`. -/
theorem timeIsSampledOnceAtAcceptance : Obligations.TimeIsSampledOnceAtAcceptance := by
  refine ⟨fun s w rest hr hb he hw => ?_,
    fun i s w x v u n c hi hp => ⟨_, exec_eq i s, exec_withClock hi hp v u n c (exec_eq i s)⟩⟩
  refine ⟨_, (commandWriteIsAcceptedOrDropped s w rest hr).1 he hb, fun hsrc => ?_, fun hsrc => ?_⟩
  · simp [hw, State.sampleNow, hsrc]
  · simp [hw, State.sampleNow, hsrc]

/-- Settles O36: TIME on each of the three results of checking its sample; the values written are exact. -/
theorem timeWritesStepAndRemaining : Obligations.TimeWritesStepAndRemaining := by
  refine ⟨by decide, fun s w x hp => ?_⟩
  obtain rfl : s.commandSample = x := commandSample_of_pend hp
  refine ⟨fun hv => ?_, fun hv hlt => ?_, fun hv hle _ => ?_⟩
  · exact exec_time_error (checkSample_unavailable hv _)
  · exact exec_time_error (checkSample_beforeStart hv hlt)
  · exact ⟨stepCount _ s.act, secondsRemaining _ s.act, stepCount_toNat .., secondsRemaining_toNat ..,
      exec_time_ok (checkSample_valid hv hle)⟩

/-- Settles O37: the counter is a floor division, monotone in the time; one step size more in the dividend is 1 more in
the quotient. -/
theorem stepCounterIsMonotone : Obligations.StepCounterIsMonotone := by
  intro c t u hc ht
  rw [stepCount_toNat, stepCount_toNat]
  refine ⟨fun htu => Nat.div_le_div_right (Nat.sub_le_sub_right htu _), fun hu => ?_⟩
  rw [hu, Nat.sub_add_comm ht, Nat.add_div_right _ hc]

/-- Settles O38: the results are those of one checked time (`exec_storesTime`), and its two values name its window. -/
theorem timeResultsNameOneWindow : Obligations.TimeResultsNameOneWindow := by
  intro i s t hi hc hx hv
  obtain ⟨x, hle, hact, hsamp, hstep, hremain⟩ := exec_storesTime hi hx hv
  rw [hact, hsamp, hstep, hremain]
  exact ⟨hle, elapsed_add_secondsRemaining hc x, secondsRemaining_bounds hc x⟩

end Sys2Proof.Proofs
end

section
/-! PROOFS. TOTP (44_totp_facade.md R231, R232): the ways it completes, and that it is TIME followed by HOTP. -/

namespace Sys2Proof.Machine

/-! ### The ways TOTP completes -/

/-- A sample that fails its check is reported, whether or not there is a key (R232). -/
theorem exec_totp_badSample {s : State} {e : CmdError} (h : checkSample s.commandSample s.act.start = .error e) :
    exec .totp s = .next (s.endsInError e.code e.detail 7#4) := by
  rw [exec_eq, commandWrites, totpFromSample, h]
  rfl

section
variable {s : State} {x : DWord} (hx : checkSample s.commandSample s.act.start = .ok x)
include hx

theorem exec_totp_noKey (hk : s.status.keyValid = false) :
    exec .totp s = .next (s.endsInError 4#4 1#4 7#4) := by
  rw [exec_eq, commandWrites, totpFromSample, hx, hk]
  rfl

theorem exec_totp_keyed (hk : s.status.keyValid = true) :
    exec .totp s = .next
      ((s.storeTime x).storeHotp (hotpValue s.keyBytes (stepCount x s.act) s.act.width.toNat)).endsWell := by
  rw [exec_eq, commandWrites, totpFromSample, hx, hk]
  rfl

end

/-- A TOTP that succeeds had a key and a sample that passed its check (R231). -/
theorem checks_of_exec_totp_valid {s t : State} (hx : exec .totp s = .next t) (hv : t.status.valid = true) :
    s.status.keyValid = true ∧ ∃ x, checkSample s.commandSample s.act.start = .ok x := by
  obtain ⟨u, hw, -⟩ := exec_ok hx hv
  obtain ⟨h, -⟩ | ⟨h, -⟩ | ⟨h, -⟩ | ⟨h, -⟩ | ⟨h, -⟩ | ⟨h, -⟩ | ⟨-, hk, x, hc, -⟩ := commandWrites_ok hw
  case inr.inr.inr.inr.inr.inr => exact ⟨hk, x, hc⟩
  all_goals cases h

/-- TOTP is TIME, then HOTP with COUNTER at the STEP that TIME left; COUNTER itself stays (R231). -/
theorem exec_time_then_hotp {s : State} {x : DWord} (hx : checkSample s.commandSample s.act.start = .ok x)
    (hk : s.status.keyValid = true) :
    ∃ u v : State, exec .time s = .next u ∧ exec .hotp { u with counter := u.stepReg } = .next v ∧
      exec .totp s = .next { v with counter := s.counter } :=
  ⟨_, _, exec_time_ok hx, exec_hotp_keyed hk, exec_totp_keyed hx hk⟩

end Sys2Proof.Machine

namespace Sys2Proof.Proofs

open Sys2Proof.Machine

/-- Settles O39: TOTP on each way its checks can end; the step and the seconds remaining are exact, and the code results
are the truncation on numbers (`hotpOfDigest`). -/
theorem totpWritesCodeOfItsSample : Obligations.TotpWritesCodeOfItsSample := by
  refine ⟨by decide, fun s w x hp => ?_⟩
  obtain rfl : s.commandSample = x := commandSample_of_pend hp
  refine ⟨fun hv => ?_, fun hv hlt => ?_, fun hv hle hk => ?_, fun hv hle _ hk => ?_⟩
  · exact exec_totp_badSample (checkSample_unavailable hv _)
  · exact exec_totp_badSample (checkSample_beforeStart hv hlt)
  · exact exec_totp_noKey (checkSample_valid hv hle) hk
  · exact ⟨stepCount _ s.act, secondsRemaining _ s.act, _, truncOffset _, trunc31 _ _, stepCount_toNat ..,
      secondsRemaining_toNat .., rfl, truncOffset_toNat _, trunc31_toNat _ _,
      exec_totp_keyed (checkSample_valid hv hle) hk⟩

/-- Settles O40: a TOTP that succeeds passed both checks, so TIME and HOTP succeed as well (`exec_time_then_hotp`), and
a command has one outcome. -/
theorem totpIsTimeThenHotp : Obligations.TotpIsTimeThenHotp := by
  intro s t u v htotp hv htime hhotp
  obtain ⟨hk, x, hx⟩ := checks_of_exec_totp_valid htotp hv
  obtain ⟨u', v', htime', hhotp', htotp'⟩ := exec_time_then_hotp hx hk
  obtain rfl : u' = u := by simpa using htime'.symm.trans htime
  obtain rfl : v' = v := by simpa using hhotp'.symm.trans hhotp
  simpa using htotp.symm.trans htotp'

end Sys2Proof.Proofs
end

section
/-! PROOFS. The error entry and its reports, the interrupt output and the secrecy of the key bytes (60_exceptions.md R250
to R264). -/

namespace Sys2Proof.Machine

/-! ### A step that is not told the key bytes (R264, 10_state.md R47) -/

/-- `s` with other key bytes. -/
def State.withKeyBytes (s : State) (k : List Byte) : State := { s with key := k }

@[simp] theorem State.withKeyBytes_status (s : State) (k : List Byte) : (s.withKeyBytes k).status = s.status := rfl
@[simp] theorem State.withKeyBytes_cfg (s : State) (k : List Byte) : (s.withKeyBytes k).cfg = s.cfg := rfl
@[simp] theorem State.withKeyBytes_act (s : State) (k : List Byte) : (s.withKeyBytes k).act = s.act := rfl
@[simp] theorem State.withKeyBytes_pend (s : State) (k : List Byte) : (s.withKeyBytes k).pend = s.pend := rfl
@[simp] theorem State.withKeyBytes_rst (s : State) (k : List Byte) : (s.withKeyBytes k).rst = s.rst := rfl
@[simp] theorem State.withKeyBytes_inbuf (s : State) (k : List Byte) : (s.withKeyBytes k).inbuf = s.inbuf := rfl
@[simp] theorem State.withKeyBytes_events (s : State) (k : List Byte) : (s.withKeyBytes k).events = s.events := rfl
@[simp] theorem State.withKeyBytes_draws (s : State) (k : List Byte) : (s.withKeyBytes k).draws = s.draws := rfl
@[simp] theorem State.withKeyBytes_commandSample (s : State) (k : List Byte) :
    (s.withKeyBytes k).commandSample = s.commandSample := rfl

/-- No register shows a key byte. -/
theorem Reg.value_withKeyBytes (r : Reg) (s : State) (k : List Byte) : r.value (s.withKeyBytes k) = r.value s := by
  cases r <;> rfl

theorem readReg_withKeyBytes (s : State) (r : Reg) (k : List Byte) :
    (s.withKeyBytes k).readReg r = (s.readReg r).withKeyBytes k := by
  rw [State.readReg, State.readReg, Reg.value_withKeyBytes, State.withKeyBytes_status, State.withKeyBytes_draws]
  split <;> rfl

theorem writeReg_withKeyBytes (s : State) (r : Reg) (v : Word) (k : List Byte) :
    (s.withKeyBytes k).writeReg r v = (s.writeReg r v).withKeyBytes k := by
  have hstore : (s.withKeyBytes k).storeReg r v = (s.storeReg r v).withKeyBytes k := by cases r <;> rfl
  rw [State.writeReg, State.writeReg, hstore, State.withKeyBytes_status]
  split <;> rfl

theorem writeInbuf_withKeyBytes (s : State) (j : Nat) (v : Word) (k : List Byte) :
    (s.withKeyBytes k).writeInbuf j v = (s.writeInbuf j v).withKeyBytes k := by
  rw [State.writeInbuf, State.writeInbuf, State.withKeyBytes_status]
  split <;> rfl

theorem busRead_withKeyBytes (s : State) (off : BitVec 9) (k : List Byte) :
    (s.withKeyBytes k).busRead off = (s.busRead off).withKeyBytes k := by
  simp only [State.busRead, State.withKeyBytes_inbuf, readReg_withKeyBytes]
  cases target off <;> rfl

theorem busWrite_withKeyBytes (s : State) (off : BitVec 9) (v : Word) (k : List Byte) :
    (s.withKeyBytes k).busWrite off v = (s.busWrite off v).withKeyBytes k := by
  simp only [State.busWrite, writeReg_withKeyBytes, writeInbuf_withKeyBytes]
  cases target off <;> rfl

/-- No transfer reads or writes a key byte (R264). -/
theorem portTransfer_withKeyBytes (s : State) (off : BitVec 9) (x : Transfer) (k : List Byte) :
    (s.withKeyBytes k).portTransfer off x = (s.portTransfer off x).withKeyBytes k := by
  unfold State.portTransfer
  split
  next hr =>
    rw [if_pos (by exact hr)]
    rfl
  next hr =>
    rw [if_neg (by exact hr)]
    cases x with
    | read => exact busRead_withKeyBytes s off k
    | write v => exact busWrite_withKeyBytes s off v k

theorem platformTransfer_withKeyBytes (s : State) (addr : Nat) (x : Transfer) (k : List Byte) :
    (s.withKeyBytes k).platformTransfer addr x = (s.platformTransfer addr x).withKeyBytes k := by
  simp only [State.platformTransfer, portTransfer_withKeyBytes]
  cases portOffset addr <;> rfl

/-- But for HOTP and TOTP, the writes of a command, or its error, are the same whatever the key bytes are. -/
theorem commandWrites_withKeyBytes {i : Instr} (hhotp : i ≠ .hotp) (htotp : i ≠ .totp) (s : State) (k : List Byte) :
    ∃ k', commandWrites i (s.withKeyBytes k) = (commandWrites i s).map (·.withKeyBytes k') := by
  have hkey : i = .keyB32 ∨ i = .keyRaw →
      ∃ k', commandWrites i (s.withKeyBytes k) = (commandWrites i s).map (·.withKeyBytes k') := fun hi => by
    have hsame : commandWrites i (s.withKeyBytes k) = commandWrites i s := commandWrites_withKey hi s k s.keyLen
    rw [hsame]
    cases commandWrites i s with
    | ok u => exact ⟨u.key, rfl⟩
    | error e => exact ⟨k, rfl⟩
  cases i with
  | cfgCommit =>
    refine ⟨k, ?_⟩
    simp only [commandWrites, commitConfig, State.withKeyBytes_cfg]
    cases s.cfg.firstError <;> rfl
  | cfgDefault => exact ⟨k, rfl⟩
  | keyB32 => exact hkey (.inl rfl)
  | keyRaw => exact hkey (.inr rfl)
  | hotp => exact absurd rfl hhotp
  | time =>
    refine ⟨k, ?_⟩
    simp only [commandWrites, timeFromSample, State.withKeyBytes_commandSample, State.withKeyBytes_act]
    cases checkSample s.commandSample s.act.start <;> rfl
  | totp => exact absurd rfl htotp
  | illegal op rsvd => exact ⟨k, rfl⟩

/-- But for HOTP and TOTP, a command leaves the same state whatever the key bytes are, but for the key bytes. -/
theorem exec_withKeyBytes {i : Instr} (hhotp : i ≠ .hotp) (htotp : i ≠ .totp) {s t : State} (h : exec i s = .next t)
    (k : List Byte) : ∃ k', exec i (s.withKeyBytes k) = .next (t.withKeyBytes k') := by
  obtain ⟨k', hw'⟩ := commandWrites_withKeyBytes hhotp htotp s k
  rw [exec_eq, hw']
  rcases exec_cases h with ⟨u, hw, rfl⟩ | ⟨e, hw, rfl⟩
  · exact ⟨k', by rw [hw]; rfl⟩
  · exact ⟨k, by rw [hw]; rfl⟩

/-- A command that is pending at a completion event, or when the schedule is empty, is completed (10_state.md R45). -/
theorem completing_of_pend {s : State} {p : Pending} (hr : s.rst = false) (hp : s.pend = some p)
    (he : s.events = [] ∨ ∃ rest, s.events = .complete :: rest) : s.completing = some (decode p.word) := by
  rcases he with he | ⟨rest, he⟩ <;> simp [State.completing, hr, hp, he]

section
variable {s t : State}

theorem runPending_withKeyBytes
    (hc : ∀ p, s.rst = false → s.pend = some p → decode p.word ≠ .hotp ∧ decode p.word ≠ .totp)
    (h : runPending s = .next t) (k : List Byte) :
    ∃ k', runPending (s.withKeyBytes k) = .next (t.withKeyBytes k') := by
  rcases runPending_cases h with ⟨hidle, rfl⟩ | ⟨hr, p, hp, hx⟩
  · exact ⟨k, by rcases hidle with hidle | hidle <;> simp [runPending, hidle]⟩
  · obtain ⟨hhotp, htotp⟩ := hc p hr hp
    obtain ⟨k', hx'⟩ := exec_withKeyBytes hhotp htotp hx k
    exact ⟨k', by simp [runPending, hr, hp, hx']⟩

/-- Events act alike whatever the key bytes are; only a completion could read them. -/
theorem runEvent_withKeyBytes {e : Event}
    (hc : e = .complete → ∀ p, s.rst = false → s.pend = some p → decode p.word ≠ .hotp ∧ decode p.word ≠ .totp)
    (h : runEvent e s = .next t) (k : List Byte) :
    ∃ k', runEvent e (s.withKeyBytes k) = .next (t.withKeyBytes k') := by
  cases e with
  | port off x =>
    cases h
    exact ⟨k, congrArg Host.Outcome.next (portTransfer_withKeyBytes s off x k)⟩
  | platform addr x =>
    cases h
    exact ⟨k, congrArg Host.Outcome.next (platformTransfer_withKeyBytes s addr x k)⟩
  | timePort v x =>
    cases h
    exact ⟨k, rfl⟩
  | rst level =>
    cases level with
    | true =>
      cases h
      exact ⟨s.assertReset.key, rfl⟩
    | false =>
      cases h
      exact ⟨k, rfl⟩
  | complete => exact runPending_withKeyBytes (hc rfl) h k
  | idle =>
    cases h
    exact ⟨k, rfl⟩
  | powerDown => cases h

end

/-! ### The errors of each command (R251, R252) -/

theorem firstError_some {c : OtpConfig} {e : CmdError} (h : c.firstError = some e) :
    e = .stepZero ∨ e = .widthZero ∨ e = .widthTooLarge := by
  unfold OtpConfig.firstError at h
  split_ifs at h <;> cases h
  · exact .inl rfl
  · exact .inr (.inl rfl)
  · exact .inr (.inr rfl)

/-- The error of each command that raises one, and the check it comes from. -/
theorem commandWrites_error {i : Instr} {s : State} {e : CmdError} (h : commandWrites i s = .error e) :
    (i = .cfgCommit ∧ s.cfg.firstError = some e) ∨
    (i = .keyB32 ∧ base32Decode s.text = .error e) ∨
    (i = .keyRaw ∧ e = .keyTooLong) ∨
    (i = .hotp ∧ e = .noKey) ∨
    (i = .time ∧ checkSample s.commandSample s.act.start = .error e) ∨
    (i = .totp ∧ (checkSample s.commandSample s.act.start = .error e ∨ e = .noKey)) ∨
    ∃ op rsvd, i = .illegal op rsvd ∧ e = illegalError rsvd := by
  cases i with
  | cfgCommit =>
    simp only [commandWrites, commitConfig] at h
    split at h
    next e' hf => cases h; exact .inl ⟨rfl, hf⟩
    next => cases h
  | cfgDefault => cases h
  | keyB32 =>
    simp only [commandWrites, keyFromBase32] at h
    split at h
    next e' hd => cases h; exact .inr (.inl ⟨rfl, hd⟩)
    next => cases h
  | keyRaw =>
    simp only [commandWrites, keyFromRaw] at h
    split at h
    next => cases h; exact .inr (.inr (.inl ⟨rfl, rfl⟩))
    next => cases h
  | hotp =>
    simp only [commandWrites, hotpFromCounter] at h
    split at h
    next => cases h
    next => cases h; exact .inr (.inr (.inr (.inl ⟨rfl, rfl⟩)))
  | time =>
    simp only [commandWrites, timeFromSample] at h
    split at h
    next e' hc => cases h; exact .inr (.inr (.inr (.inr (.inl ⟨rfl, hc⟩))))
    next => cases h
  | totp =>
    simp only [commandWrites, totpFromSample] at h
    split at h
    next e' hc => cases h; exact .inr (.inr (.inr (.inr (.inr (.inl ⟨rfl, .inl hc⟩)))))
    next =>
      split at h
      next => cases h
      next => cases h; exact .inr (.inr (.inr (.inr (.inr (.inl ⟨rfl, .inr rfl⟩)))))
  | illegal op rsvd => cases h; exact .inr (.inr (.inr (.inr (.inr (.inr ⟨op, rsvd, rfl, rfl⟩)))))

/-- The DecodeErrors are 1.1 to 1.4 (R252). -/
theorem CmdError.detail_of_code_one {e : CmdError} (h : e.code = 1#4) :
    e.detail = 1#4 ∨ e.detail = 2#4 ∨ e.detail = 3#4 ∨ e.detail = 4#4 := by
  cases e with
  | invalidCharacter | invalidPadding | malformedLength | unusedBits => decide
  | _ => exact absurd h (by decide)

/-- The errors of a time sample are 2.1 and 2.2 (R252). -/
theorem checkSample_error_row {x : Sample} {start : DWord} {e : CmdError} (h : checkSample x start = .error e) :
    e.code = 2#4 ∧ (e.detail = 1#4 ∨ e.detail = 2#4) := by
  rcases checkSample_error h with ⟨rfl, -⟩ | ⟨rfl, -⟩ <;> decide

/-- The three fields of ERR do not overlap in its word (10_state.md R33). -/
theorem ErrReg.word_toNat (e : ErrReg) :
    e.word.toNat = e.op.toNat * 2 ^ 16 + e.detail.toNat * 2 ^ 8 + e.code.toNat := by
  have := e.op.isLt
  have := e.detail.isLt
  have := e.code.isLt
  rw [e.word_eq]
  exact Nat.mod_eq_of_lt (by omega)

/-- After a completion `irq` is IE (R260). -/
theorem exec_irq {i : Instr} {s t : State} (h : exec i s = .next t) : t.irq = s.ctrl.ie := by
  rw [State.irq, exec_status h, (exec_frame h).ctrl]
  exact Bool.and_true _

/-! ### What moves `irq` (R261) -/

section
variable {s t : State} (h : step s = .next t)
include h

/-- A reset clears IE and DONE. -/
theorem irq_of_resetting (hr : s.resetting = true) : t.irq = false := by
  unfold State.resetting at hr
  split at hr
  next rest he =>
    rw [step_event he] at h
    cases h
    rfl
  next => cases hr

/-- A completion sets DONE. -/
theorem irq_of_completing (hc : s.completing.isSome = true) : t.irq = s.ctrl.ie := by
  obtain ⟨i, hi⟩ := Option.isSome_iff_exists.1 hc
  have hr := rst_of_completing hi
  obtain ⟨p, hp⟩ := Option.isSome_iff_exists.1 (pend_of_completing hi)
  unfold State.completing at hi
  rw [if_neg (by simp [hr])] at hi
  split at hi
  next he => exact exec_irq (s := s.begin []) ((step_scheduleEmpty hr hp he).symm.trans h)
  next rest he => exact exec_irq (s := s.begin rest) ((step_complete hr hp he).symm.trans h)
  next => cases hi

/-- The step of a transfer, through the port or from the platform (20_memory.md R70). -/
theorem eq_portTransfer_of_incoming {off : BitVec 9} {x : Transfer} (hi : s.incoming = some (off, x)) :
    s.rst = false ∧ t = (s.begin s.events.tail).portTransfer off x := by
  unfold State.incoming at hi
  split at hi
  next => cases hi
  next hr =>
    refine ⟨by simpa using hr, ?_⟩
    split at hi
    next he =>
      cases hi
      rw [step_port he] at h
      cases h
      rw [he]
      rfl
    next addr x' rest he =>
      obtain ⟨o, ho, heq⟩ := Option.map_eq_some_iff.1 hi
      cases heq
      rw [step_event he] at h
      simp only [runEvent, State.platformTransfer, ho] at h
      cases h
      rw [he]
      rfl
    next => cases hi

/-- The step of a write that a register stores. -/
theorem eq_storeReg_of_incoming {off : BitVec 9} {v : Word} {r : Reg} (hi : s.incoming = some (off, .write v))
    (ht : target off = .reg r) (hs : s.status.busy = false ∨ r.frozenWhileBusy = false) :
    t = ((s.begin s.events.tail).storeReg r v).respond 0#32 false := by
  obtain ⟨hr, rfl⟩ := eq_portTransfer_of_incoming h hi
  have hstored : (s.begin s.events.tail).writeReg r v = (s.begin s.events.tail).storeReg r v := writeReg_stored v hs
  simp [State.portTransfer, hr, State.busWrite, ht, hstored]

/-- A write to CTRL sets IE to bit 0 (10_state.md R24). -/
theorem irq_of_ctrlWrite {v : Word} (hi : s.incoming = some (0x008#9, .write v)) :
    t.irq = (v.getLsbD 0 && s.status.done) := by
  rw [eq_storeReg_of_incoming h hi (r := .ctrl) (by decide) (.inr rfl)]
  rfl

/-- A write to STATUS clears DONE by bit 1 (10_state.md R25). -/
theorem irq_of_statusWrite {v : Word} (hi : s.incoming = some (0x00C#9, .write v)) :
    t.irq = (s.irq && !v.getLsbD 1) := by
  rw [eq_storeReg_of_incoming h hi (r := .status) (by decide) (.inr rfl)]
  exact (Bool.and_assoc ..).symm

/-- An acceptance clears DONE (10_state.md R45). -/
theorem irq_of_accept {w : Word} (hi : s.incoming = some (0x010#9, .write w)) (hb : s.status.busy = false) :
    t.irq = false := by
  rw [eq_storeReg_of_incoming h hi (r := .cmd) (by decide) (.inl hb)]
  exact Bool.and_false _

end

/-- Only writes to CTRL and STATUS and acceptances move IE or DONE. -/
theorem TransferEffect.irq {s u : State} {off : BitVec 9} {x : Transfer} (h : TransferEffect s off x u) :
    u.irq = s.irq ∨ ∃ v, x = .write v ∧ (off = 0x008#9 ∨ off = 0x00C#9 ∨ (off = 0x010#9 ∧ s.status.busy = false)) := by
  cases h with
  | ctrl v _ ho => exact .inr ⟨v, rfl, .inl ho⟩
  | status v _ ho => exact .inr ⟨v, rfl, .inr (.inl ho)⟩
  | accept v _ ho hb => exact .inr ⟨v, rfl, .inr (.inr ⟨ho, hb⟩)⟩
  | _ => exact .inl rfl

/-- Every other step leaves `irq` as it was. -/
theorem step_irq_cases {s t : State} (h : step s = .next t) :
    t.irq = s.irq ∨ s.resetting = true ∨ s.completing.isSome = true ∨
      ∃ v, s.incoming = some (0x008#9, .write v) ∨ s.incoming = some (0x00C#9, .write v) ∨
        (s.incoming = some (0x010#9, .write v) ∧ s.status.busy = false) := by
  cases step_cases h with
  | completion i t hc hx => exact .inr (.inr (.inl (by rw [hc]; rfl)))
  | transfer off x u r n hi hu =>
    rcases hu.irq with hq | ⟨v, rfl, rfl | rfl | ⟨rfl, hb⟩⟩
    · exact .inl hq
    · exact .inr (.inr (.inr ⟨v, .inl hi⟩))
    · exact .inr (.inr (.inr ⟨v, .inr (.inl hi)⟩))
    · exact .inr (.inr (.inr ⟨v, .inr (.inr ⟨hi, hb⟩)⟩))
  | assert _ hr => exact .inr (.inl hr)
  | _ => exact .inl rfl

end Sys2Proof.Machine

namespace Sys2Proof.Proofs

open Sys2Proof.Machine

/-- Settles O60: each event acts alike whatever the key bytes are (`runEvent_withKeyBytes`), and so does a completion
(`runPending_withKeyBytes`), the pending command being neither HOTP nor TOTP. -/
theorem keyBytesAreNeverReadBack : Obligations.KeyBytesAreNeverReadBack := by
  intro s t k hhotp htotp h
  have hc : (s.events = [] ∨ ∃ rest, s.events = .complete :: rest) → ∀ p, s.rst = false → s.pend = some p →
      decode p.word ≠ .hotp ∧ decode p.word ≠ .totp := fun he p hr hp => by
    have hcomp := completing_of_pend hr hp he
    exact ⟨fun hd => hhotp (hd ▸ hcomp), fun hd => htotp (hd ▸ hcomp)⟩
  change ∃ k', step (s.withKeyBytes k) = .next (t.withKeyBytes k')
  cases he : s.events with
  | nil =>
    rw [step_noEvent he] at h
    rw [step_noEvent ((s.withKeyBytes_events k).trans he)]
    exact runPending_withKeyBytes (s := s.begin []) (hc (.inl he)) h k
  | cons e rest =>
    rw [step_event he] at h
    rw [step_event ((s.withKeyBytes_events k).trans he)]
    exact runEvent_withKeyBytes (s := s.begin rest) (fun hcomplete => hc (.inr ⟨rest, hcomplete ▸ he⟩)) h k

/-- Settles O12: the error case of a completion is the error entry (`exec_error`). -/
theorem errorEntryIsAllOrNothing : Obligations.ErrorEntryIsAllOrNothing := by
  intro i s t h he
  have hirq := exec_irq h
  obtain ⟨e, -, rfl⟩ := exec_error h he
  exact ⟨⟨e, rfl⟩, ErrReg.word_toNat _, hirq⟩

/-- Settles O13: the error of each command is `commandWrites_error`; each check raises its own rows of the table. -/
theorem reportedErrorsAreTheTableRows : Obligations.ReportedErrorsAreTheTableRows := by
  intro i s t h he
  obtain ⟨e, hw, rfl⟩ := exec_error h he
  rcases commandWrites_error hw with ⟨rfl, hf⟩ | ⟨rfl, hd⟩ | ⟨rfl, rfl⟩ | ⟨rfl, rfl⟩ | ⟨rfl, hc⟩ | ⟨rfl, hc | rfl⟩ |
    ⟨op, rsvd, rfl, rfl⟩
  · refine .inl ⟨rfl, ?_⟩
    rcases firstError_some hf with rfl | rfl | rfl
    · exact ⟨rfl, .inl rfl⟩
    · exact ⟨rfl, .inr (.inl rfl)⟩
    · exact ⟨rfl, .inr (.inr rfl)⟩
  · have hcode := base32Decode_error_code hd
    exact .inr (.inl ⟨rfl, hcode, CmdError.detail_of_code_one hcode⟩)
  · exact .inr (.inr (.inl ⟨rfl, rfl, rfl⟩))
  · exact .inr (.inr (.inr (.inl ⟨rfl, rfl, rfl⟩)))
  · exact .inr (.inr (.inr (.inr (.inl ⟨rfl, checkSample_error_row hc⟩))))
  · exact .inr (.inr (.inr (.inr (.inr (.inl ⟨rfl, .inl (checkSample_error_row hc)⟩)))))
  · exact .inr (.inr (.inr (.inr (.inr (.inl ⟨rfl, .inr ⟨rfl, rfl⟩⟩)))))
  · exact .inr (.inr (.inr (.inr (.inr (.inr ⟨op, rsvd, rfl, illegalError_code rsvd, illegalError_detail rsvd⟩)))))

/-- Settles O53: `step_irq_cases` names the only steps that can move `irq`, and each of them has its value of `irq`. -/
theorem interruptFollowsDoneAndEnable : Obligations.InterruptFollowsDoneAndEnable := by
  intro s t h
  refine ⟨rfl, fun hs => ⟨fun ht => ?_, ?_⟩, fun hs => ⟨fun ht => ?_, ?_⟩⟩
  · obtain ⟨hie, hdone⟩ := Bool.and_eq_true_iff.1 hs
    rcases step_irq_cases h with hq | hr | hc | ⟨v, hi | hi | ⟨hi, hb⟩⟩
    · simp [hq, hs] at ht
    · exact .inl hr
    · simp [irq_of_completing h hc, hie] at ht
    · exact .inr (.inr (.inl ⟨v, hi, by simpa [irq_of_ctrlWrite h hi, hdone] using ht⟩))
    · exact .inr (.inl ⟨v, hi, by simpa [irq_of_statusWrite h hi, hs] using ht⟩)
    · exact .inr (.inr (.inr ⟨v, hi, hb⟩))
  · rintro (hr | ⟨v, hi, hv⟩ | ⟨v, hi, hv⟩ | ⟨w, hi, hb⟩)
    · exact irq_of_resetting h hr
    · simp [irq_of_statusWrite h hi, hv]
    · rw [irq_of_ctrlWrite h hi, hv, Bool.false_and]
    · exact irq_of_accept h hi hb
  · rcases step_irq_cases h with hq | hr | hc | ⟨v, hi | hi | ⟨hi, hb⟩⟩
    · simp [hq, hs] at ht
    · simp [irq_of_resetting h hr] at ht
    · exact .inl ⟨hc, (irq_of_completing h hc).symm.trans ht⟩
    · exact .inr ⟨v, hi, Bool.and_eq_true_iff.1 ((irq_of_ctrlWrite h hi).symm.trans ht)⟩
    · simp [irq_of_statusWrite h hi, hs] at ht
    · simp [irq_of_accept h hi hb] at ht
  · rintro (⟨hc, hie⟩ | ⟨v, hi, hv, hdone⟩)
    · rw [irq_of_completing h hc, hie]
    · rw [irq_of_ctrlWrite h hi, hv, hdone]
      rfl

end Sys2Proof.Proofs
end

section
/-! PROOFS. Reset and the accesses while a command runs, and that every pending command completes or is abandoned by a
reset (70_reset_and_hazards.md R290 to R306). -/

namespace Sys2Proof.Machine

/-! ### Reads of result registers while a command runs (R297) -/

/-- The bits that can be 1 at the offset of a result register: OFFSET, TRUNC and CODE read some bits as 0 (R44). -/
def resultMaskAt (off : BitVec 9) : Word :=
  if off = 0x0B4#9 then 0x0000000F#32
  else if off = 0x0B8#9 then 0x7FFFFFFF#32
  else if off = 0x0BC#9 then 0x3FFFFFFF#32
  else 0xFFFFFFFF#32

/-- Each aligned offset of the two ranges holds a result register, with its mask (R42 to R44). -/
theorem target_resultOffset {off : BitVec 9} (h : ResultOffset off.toNat) :
    ∃ r, target off = .reg r ∧ r.resultMask = some (resultMaskAt off) := by
  have hmap : ∃ e ∈ registerMap, e.1 = off.toNat ∧ e.2.resultMask = some (resultMaskAt off) := by
    unfold ResultOffset at h
    revert off
    decide +kernel
  obtain ⟨⟨o, r⟩, hm, rfl, hmask⟩ := hmap
  exact ⟨r, (target_of_mem_registerMap hm).1, hmask⟩

/-- A read of a result register while a command runs draws a free value (R297, U1). -/
theorem readReg_busy {s : State} {r : Reg} {mask : Word} (hb : s.status.busy = true) (hm : r.resultMask = some mask) :
    s.readReg r = { s with
      resp := some { data := Config.freeWord s.draws &&& mask, error := false }, draws := s.draws + 1 } := by
  simp [State.readReg, hb, hm, State.respond]

/-! ### Writes while a command runs (R296) -/

/-- The offsets whose writes a running command freezes name a frozen register or a word of INBUF. -/
theorem target_frozen {off : BitVec 9} (ha : off.toNat % 4 = 0)
    (h : off.toNat = 0x010 ∨ (0x020 ≤ off.toNat ∧ off.toNat ≤ 0x030) ∨ (0x060 ≤ off.toNat ∧ off.toNat ≤ 0x070) ∨
      0x100 ≤ off.toNat) :
    (∃ r, target off = .reg r ∧ r.frozenWhileBusy = true) ∨ ∃ j, target off = .inbuf j := by
  by_cases hi : 0x100 ≤ off.toNat
  · exact .inr ⟨_, (if_neg (by omega)).trans (if_pos hi)⟩
  · have hmap : ∃ e ∈ registerMap, e.1 = off.toNat ∧ e.2.frozenWhileBusy = true := by
      revert off
      decide +kernel
    obtain ⟨⟨o, r⟩, hm, rfl, hf⟩ := hmap
    exact .inl ⟨r, (target_of_mem_registerMap hm).1, hf⟩

/-- A write to a frozen register or to INBUF while a command runs is dropped and sets OVR. -/
theorem busWrite_dropped {s : State} {off : BitVec 9} (v : Word) (hb : s.status.busy = true)
    (ht : (∃ r, target off = .reg r ∧ r.frozenWhileBusy = true) ∨ ∃ j, target off = .inbuf j) :
    s.busWrite off v = s.dropWrite.respond 0#32 false := by
  rcases ht with ⟨r, ht, hf⟩ | ⟨j, ht⟩
  · rw [State.busWrite, ht]
    exact congrArg (State.respond · 0#32 false) (writeReg_dropped v hb hf)
  · simp [State.busWrite, ht, State.writeInbuf, hb]

/-! ### Reset (R290, R292) -/

/-- While `rst` is asserted nothing completes. -/
theorem runPending_of_rst {s : State} (hr : s.rst = true) : runPending s = .next s := if_pos hr

/-- While `rst` is asserted a transfer has no effect and is answered with 0. -/
theorem portTransfer_of_rst {s : State} (hr : s.rst = true) (off : BitVec 9) (x : Transfer) :
    s.portTransfer off x = s.respond 0#32 false := if_pos hr

/-- The reset values show an idle block. -/
theorem idle_of_heldInReset {s : State} (h : s.heldInReset) : s.status.busy = false ∧ s.pend = none := by
  rw [h]
  exact ⟨rfl, rfl⟩

/-! ### The run of a pending command (R305, R306) -/

/-- The engine is running the pending command `p`. -/
structure State.Runs (s : State) (p : Pending) : Prop where
  pend : s.pend = some p
  busy : s.status.busy = true
  released : s.rst = false

/-- `t` is the completion of the pending command `p`. -/
def Completes (p : Pending) (t : State) : Prop := ∃ u : State, u.pend = some p ∧ exec (decode p.word) u = .next t

theorem Completes.busy {p : Pending} {t : State} (h : Completes p t) : t.status.busy = false := by
  obtain ⟨u, -, hx⟩ := h
  rw [exec_status hx]
  rfl

theorem Completes.done {p : Pending} {t : State} (h : Completes p t) : t.status.done = true := by
  obtain ⟨u, -, hx⟩ := h
  rw [exec_status hx]
  rfl

theorem Completes.pend {p : Pending} {t : State} (h : Completes p t) : t.pend = none := by
  obtain ⟨u, -, hx⟩ := h
  exact exec_pend hx

/-- The command a step completes is the pending one. -/
theorem decode_of_completing {s : State} {p : Pending} {i : Instr} (hp : s.pend = some p)
    (hc : s.completing = some i) : decode p.word = i := by
  have hr := rst_of_completing hc
  rw [State.completing, if_neg (by simp [hr]), hp] at hc
  split at hc
  · injection hc
  · injection hc
  · cases hc

/-- A step while a command runs completes it, abandons it by a reset, or leaves it running. -/
theorem step_cases_of_runs {s t : State} {p : Pending} (hs : s.Runs p) (h : step s = .next t) :
    Completes p t ∨ (s.resetting = true ∧ t.status.busy = false ∧ t.pend = none) ∨ t.Runs p := by
  cases step_cases h with
  | completion i t hc hx =>
    rw [← decode_of_completing hs.pend hc] at hx
    exact .inl ⟨s.begin s.events.tail, hs.pend, hx⟩
  | transfer off x u r n hi hu =>
    rw [hu.eq_of_busy hs.busy]
    exact .inr (.inr ⟨hs.pend, hs.busy, hs.released⟩)
  | quiet r hc => exact .inr (.inr ⟨hs.pend, hs.busy, hs.released⟩)
  | timePort v x hc => exact .inr (.inr ⟨hs.pend, hs.busy, hs.released⟩)
  | assert hc hr => exact .inr (.inl ⟨hr, rfl, rfl⟩)
  | release hc => exact .inr (.inr ⟨hs.pend, hs.busy, rfl⟩)

/-- Only an assertion of `rst` in the schedule resets. -/
theorem rst_mem_of_resetting {s : State} (h : s.resetting = true) : .rst true ∈ s.events := by
  unfold State.resetting at h
  split at h
  next rest he => simp [he]
  next => cases h

/-- A run begins with its first step. -/
theorem run_succ {s t : State} (h : step s = .next t) (k : Nat) : core.run (k + 1) s = core.run k t := by
  have h' : core.step s = .next t := h
  simp only [Host.Core.run, h']

/-- Within `n` steps the block is idle, and without a reset in the schedule it is the completion of `p` that made it
so. -/
def State.EndsWithin (s : State) (p : Pending) (n : Nat) : Prop :=
  ∃ (k : Nat) (t : State), k ≤ n ∧ core.run k s = .next t ∧ t.status.busy = false ∧ t.pend = none ∧
    (.rst true ∉ s.events → Completes p t)

/-- A step that completes the command ends its run. -/
theorem endsWithin_of_completes {s t : State} {p : Pending} (h : step s = .next t) (ht : Completes p t) (n : Nat) :
    s.EndsWithin p (n + 1) :=
  ⟨1, t, by omega, run_succ h 0, ht.busy, ht.pend, fun _ => ht⟩

/-- A running command ends within one step more than the schedule has events, by induction over the schedule. -/
theorem State.Runs.endsWithin {s : State} {p : Pending} (hs : s.Runs p) (hpow : s.powered) :
    s.EndsWithin p (s.events.length + 1) := by
  induction hev : s.events generalizing s with
  | nil =>
    obtain ⟨t, hx⟩ : ∃ t, exec (decode p.word) (s.begin []) = .next t := ⟨_, exec_eq _ _⟩
    have h : step s = .next t := (step_scheduleEmpty hs.released hs.pend hev).trans hx
    exact endsWithin_of_completes h ⟨s.begin [], hs.pend, hx⟩ 0
  | cons e rest ih =>
    unfold State.powered at hpow
    obtain ⟨hne, hrest⟩ : e ≠ .powerDown ∧ .powerDown ∉ rest := by
      rw [hev] at hpow
      simpa [eq_comm] using hpow
    obtain ⟨t, hx⟩ := runEvent_next hne (s.begin rest)
    have h : step s = .next t := (step_event hev).trans hx
    have htail : t.events = rest := by rw [step_events h, hev]; rfl
    rcases step_cases_of_runs hs h with hc | ⟨hr, hb, hp⟩ | hrun
    · exact endsWithin_of_completes h hc _
    · exact ⟨1, t, by simp, run_succ h 0, hb, hp, fun hn => absurd (rst_mem_of_resetting hr) hn⟩
    · obtain ⟨k, t', hk, hkt, hb, hp, hc⟩ := ih hrun (by rw [State.powered, htail]; exact hrest) htail
      refine ⟨k + 1, t', by simpa using hk, (run_succ h k).trans hkt, hb, hp, fun hn => hc fun hm => hn ?_⟩
      rw [hev, ← htail]
      exact List.mem_cons_of_mem _ hm

end Sys2Proof.Machine

namespace Sys2Proof.Proofs

open Sys2Proof.Machine

/-- Settles O10: `State.Runs.endsWithin`, by induction over the schedule. -/
theorem everyPendingCommandCompletes : Obligations.EveryPendingCommandCompletes := by
  intro s hpend hb hr hpow
  obtain ⟨p, hp⟩ := Option.isSome_iff_exists.1 hpend
  obtain ⟨k, t, hk, hrun, htb, htp, hc⟩ := State.Runs.endsWithin ⟨hp, hb, hr⟩ hpow
  refine ⟨k, t, hk, hrun, htb, htp, fun hn => ⟨(hc hn).done, ?_⟩⟩
  obtain ⟨u, hu, hx⟩ := hc hn
  exact ⟨p, u, hp, hu, hx⟩

/-- Settles O43: the value is the draw under the register's mask (`target_resultOffset`), and a mask of `n` ones bounds
it below `2 ^ n`. -/
theorem busyReadsOfResultsAreUnspecified : Obligations.BusyReadsOfResultsAreUnspecified := by
  intro s off rest hr hb ha hoff he
  obtain ⟨r, ht, hmask⟩ := target_resultOffset ⟨ha, hoff⟩
  refine ⟨Config.freeWord s.draws &&& resultMaskAt off, ?_, fun hlt => ?_, ?_, ?_, ?_⟩
  · rw [step_read hr he, State.busRead, ht]
    exact congrArg Host.Outcome.next (readReg_busy hb hmask)
  · have hfull : resultMaskAt off = BitVec.allOnes 32 := by
      unfold resultMaskAt
      rw [if_neg (by bv_omega), if_neg (by bv_omega), if_neg (by bv_omega)]
      rfl
    rw [hfull, BitVec.and_allOnes]
  all_goals
    rintro rfl
    exact ⟨rfl, by rw [BitVec.toNat_and]; exact Nat.and_lt_two_pow _ (by decide)⟩

/-- Settles O51: the frozen offsets are `target_frozen`; CTRL and STATUS are stored; of the other aligned offsets each is
read-only or reserved. -/
theorem inputWritesAreDroppedWhileBusy : Obligations.InputWritesAreDroppedWhileBusy := by
  intro s off v rest hr hb he
  refine ⟨fun ha hoff => ?_, ?_, ?_, fun ha hne h2 h6 hlt => ?_⟩
  · rw [step_write hr he, busWrite_dropped v (by exact hb) (target_frozen ha hoff)]
    rfl
  · rintro rfl
    exact step_storeReg (r := .ctrl) hr he (by decide) (.inr rfl)
  · rintro rfl
    exact ⟨s.status.written v, rfl, rfl, step_storeReg (r := .status) hr he (by decide) (.inr rfl)⟩
  · simp only [List.mem_cons, List.not_mem_nil, or_false, not_or] at hne
    obtain ⟨h8, hC, h10⟩ := hne
    by_cases hro : off.toNat ≤ 0x004 ∨ off.toNat = 0x014 ∨ (0x040 ≤ off.toNat ∧ off.toNat ≤ 0x050) ∨
        off.toNat = 0x074 ∨ (0x080 ≤ off.toNat ∧ off.toNat ≤ 0x094) ∨ (0x0A0 ≤ off.toNat ∧ off.toNat ≤ 0x0BC)
    · exact readOnlyRegistersIgnoreWrites s off v rest hr ha hro he
    · exact reservedOffsetsReadZero s off (.write v) rest hr ha (by omega) he

/-- Settles O56: the assertion is `State.assertReset`; while `rst` is asserted `portTransfer_of_rst` and
`runPending_of_rst` answer. -/
theorem resetReplacesTheWholeState : Obligations.ResetReplacesTheWholeState := by
  intro s rest
  refine ⟨fun he => ?_, fun hr off x he => ?_, fun hr he => ?_, fun he => ⟨step_event he, idle_of_heldInReset⟩⟩
  · exact ⟨_, step_event he, rfl, rfl, Memory.atReset_wf _, rfl, rfl, rfl, rfl, rfl, rfl⟩
  · rw [step_port he, portTransfer_of_rst (by exact hr)]
    rfl
  · rcases he with he | ⟨he, rfl⟩
    · exact (step_event he).trans (runPending_of_rst hr)
    · exact (step_noEvent he).trans (runPending_of_rst hr)

end Sys2Proof.Proofs
end
